-- ==== Sys2Proof/Word.lean ====
section
/-! DEFINITION. The word types of the block: the byte, the 16-bit checksum word (00_scope.md R11, 10_state.md R44). -/

namespace Sys2Proof

/-- A byte is an unsigned 8-bit value 0..255 (R11). -/
abbrev Byte := BitVec 8

/-- The only quantity wider than a byte: the 16-bit checksum (R63). -/
abbrev Word16 := BitVec 16

end Sys2Proof
end

