-- ==== Sys2Proof/Config.lean ====
section
/-! DEFINITION. The implementation parameters of 00_scope.md R9: the fixed ones as values, the OPEN ones as constants
without a body, so that no proof can see what they are. -/

namespace Sys2Proof.Config

/-- END, the delimiter byte (R9, R91). -/
abbrev endByte : Byte := 0x7E

/-- ESC, the escape byte (R9, R91). -/
abbrev escByte : Byte := 0x7D

/-- XMASK: an escaped byte's transmitted value is the original XOR this (R9, R91). -/
abbrev xmask : Byte := 0x20

/-- MAX_FRAME, the largest decoded length, payload and checksum together (R9, D29: the one stated value). -/
abbrev maxFrame : Nat := 1024

/-- MIN_FINISH, the least decoded length that can finish (R9). -/
abbrev minFinish : Nat := 3

/-- MAX_PAYLOAD = MAX_FRAME - 2 (R9). -/
abbrev maxPayload : Nat := 1022

/-- CRC_INIT, the seed of the checksum (R9, R151). -/
abbrev crcInit : Word16 := 0xFFFF

/-- CRC_POLY, the generator polynomial without its x^16 term (R9, R151; the spec marks it as general knowledge, G1;
log entry 15, PRESUMED). -/
abbrev crcPoly : Word16 := 0x1021

/-- FLUSH_ON_INIT, OPEN: whether construction invokes `RxFlush` (R9, R175, D26). Log entry 14. -/
opaque flushOnInit : Bool

/-- T_PAUSE, OPEN: the length of the poll pause. No rule depends on it (R9, R189, D15). Log entry 14. -/
opaque tPause : Nat

/-- TIMEOUT_UNIT, OPEN: the unit of READ's operand. No rule depends on it (R9, D14). Log entry 14. -/
opaque timeoutUnit : Nat

end Sys2Proof.Config
end

