-- ==== Sys2Proof/Syntax.lean ====
section
/-! DEFINITION. The instructions: one constructor of `Instr` per row of spec/opcode_table.json, that is the six receive
symbols of 30_encoding.md R94, the four transmit symbols of R95 and the eight operations of R99. -/

namespace Sys2Proof

/-- The decoder mode of a Frame (R21). It stands here because it takes part in the decoding of a received byte (R94). -/
inductive AsmState where
  | reading
  | escaping
  deriving DecidableEq, Repr

/-- The six rows of the receive symbol table (R94), as classes. -/
inductive RxSym where
  | endEsc
  | endFin
  | endSkip
  | esc
  | dataEsc
  | data
  deriving DecidableEq, Repr

/-- The three rows of the transmit symbol table that map a byte (R95); the fourth, TX.FLAG, maps none. -/
inductive TxSym where
  | esc7E
  | esc7D
  | lit
  deriving DecidableEq, Repr

/-- Why a command is no instruction. -/
inductive DecodeError where
  /-- The command ends before its format byte, or its operands are too short or too long. -/
  | badLength
  /-- The format byte is none of 0 (operation), 1 (receive symbol), 2 (transmit symbol), 3 (flag). -/
  | unknownFormat
  /-- Operation codes 0x8 to 0xF are reserved (R100, U9). -/
  | reservedOp
  /-- An operation's first byte has a bit above the 4-bit code set (R99). -/
  | wideOp
  /-- A handler operand whose presence byte is neither 0 (absent) nor 1 (present). -/
  | badPresence
  /-- A flag command whose byte is not END: TX.FLAG's byte is 0x7E (R95). -/
  | notAFlag
  deriving DecidableEq, Repr

/-- The instruction set (R13: an operation of R99, or a symbol of R94 or R95). `f` is the handle of the standalone Frame
acted on (log entry 5). -/
inductive Instr where
  /-- RX.END.ESC: END received in Escaping (R94 row 1, R122). -/
  | rxEndEsc (f : Nat)
  /-- RX.END.FIN: END received in Reading with 3 or more bytes buffered (R94 row 2, R123). -/
  | rxEndFin (f : Nat)
  /-- RX.END.SKIP: END received in Reading with fewer than 3 bytes buffered (R94 row 3, R124). -/
  | rxEndSkip (f : Nat)
  /-- RX.ESC: ESC received in Reading (R94 row 4, R125). -/
  | rxEsc (f : Nat)
  /-- RX.DATA.ESC: any byte but END received in Escaping (R94 row 5, R127, R128). -/
  | rxDataEsc (f : Nat) (b : Byte)
  /-- RX.DATA: any byte but END and ESC received in Reading (R94 row 6, R126). -/
  | rxData (f : Nat) (b : Byte)
  /-- TX.ESC7E: the data byte 0x7E is sent as 0x7D 0x5E (R95). -/
  | txEsc7E
  /-- TX.ESC7D: the data byte 0x7D is sent as 0x7D 0x5D (R95). -/
  | txEsc7D
  /-- TX.LIT: any other data byte is sent unchanged (R95). -/
  | txLit (x : Byte)
  /-- TX.FLAG: the delimiter, never produced from a data byte (R95). -/
  | txFlag
  /-- op 0x0, `addByte(b)` (R99, R120). -/
  | faAddbyte (f : Nat) (b : Byte)
  /-- op 0x1, `reset()` (R99, R133). -/
  | faReset (f : Nat)
  /-- op 0x2, the checksum function (R99, R150). -/
  | crc16 (s : List Byte)
  /-- op 0x3, `encode(payload)` (R99, R160). -/
  | encode (p : List Byte)
  /-- op 0x4, `sendFrame(payload)` (R99, R176). -/
  | send (p : List Byte)
  /-- op 0x5, `readFrame(timeout)` (R99, R182). -/
  | read (timeout : Nat)
  /-- op 0x6, `startReader(onFrame, onError)` (R99, R200). -/
  | start (onFrame onError : Option Nat)
  /-- op 0x7, `stopReader()` (R99, R206). -/
  | stop
  deriving DecidableEq, Repr

end Sys2Proof
end

