-- ==== Sys2Proof/WellFormed.lean ====
section
/-! DEFINITION. Which terms of `Instr` are instructions of the block: the byte a symbol stands for is one of its row
(R94, R95), and a handle or duration fits the 32 bits that this model's command layout gives it (log entry 3). -/

namespace Sys2Proof

/-- A handle or a duration fits its four operand bytes (log entry 3). -/
def fits32 (n : Nat) : Bool := decide (n < 2 ^ 32)

/-- A handler operand is absent, or present with an identity that fits (R101, log entry 3). -/
def handlerFits : Option Nat → Bool
  | none => true
  | some h => fits32 h

/-- The well-formedness of an instruction. -/
def Instr.wf : Instr → Bool
  | .rxEndEsc f => fits32 f
  | .rxEndFin f => fits32 f
  | .rxEndSkip f => fits32 f
  | .rxEsc f => fits32 f
  | .rxDataEsc f b => fits32 f && decide (b ≠ Config.endByte)
  | .rxData f b => fits32 f && decide (b ≠ Config.endByte) && decide (b ≠ Config.escByte)
  | .txEsc7E => true
  | .txEsc7D => true
  | .txLit x => decide (x ≠ Config.endByte) && decide (x ≠ Config.escByte)
  | .txFlag => true
  | .faAddbyte f _ => fits32 f
  | .faReset f => fits32 f
  | .crc16 _ => true
  | .encode _ => true
  | .send _ => true
  | .read t => fits32 t
  | .start onFrame onError => handlerFits onFrame && handlerFits onError
  | .stop => true

end Sys2Proof
end

