-- ==== Sys2Proof/Decode.lean ====
section
/-! DEFINITION. The decoder and the encoder. The spec encodes a received or transmitted symbol as its byte (R94, R95) and
an operation as a 4-bit code (R99); it gives the operands no encoding. This model's command is: the table's byte, a format
byte that says which of the three tables the byte belongs to, then the operands (log entry 3, DESIGN CHOICE). -/

namespace Sys2Proof

/-! ### The two symbol tables -/

/-- The receive symbol table: the first row of R94 that matches the byte, the decoder mode and the decoded length. -/
def classifyRx (st : AsmState) (len : Nat) (b : Byte) : RxSym :=
  if b = Config.endByte then
    match st with
    | .escaping => .endEsc
    | .reading => if Config.minFinish ≤ len then .endFin else .endSkip
  else
    match st with
    | .escaping => .dataEsc
    | .reading => if b = Config.escByte then .esc else .data

/-- The transmit symbol table for a byte of `payload || crc` (R95). -/
def classifyTx (x : Byte) : TxSym :=
  if x = Config.endByte then .esc7E
  else if x = Config.escByte then .esc7D
  else .lit

/-! ### Operand fields of a command (log entry 3) -/

/-- A number as four bytes, most significant first. -/
def be32 (n : Nat) : List Byte :=
  [BitVec.ofNat 8 (n / 2 ^ 24), BitVec.ofNat 8 (n / 2 ^ 16), BitVec.ofNat 8 (n / 2 ^ 8), BitVec.ofNat 8 n]

/-- Four bytes, most significant first, as a number. -/
def ofBe32 (b3 b2 b1 b0 : Byte) : Nat :=
  b3.toNat * 2 ^ 24 + b2.toNat * 2 ^ 16 + b1.toNat * 2 ^ 8 + b0.toNat

/-- A handler operand: one presence byte, then the identity if it is present. -/
def encodeHandler : Option Nat → List Byte
  | none => [0]
  | some h => 1 :: be32 h

/-- Reads a handler operand and gives the bytes after it. -/
def decodeHandler : List Byte → Except DecodeError (Option Nat × List Byte)
  | [] => .error .badLength
  | p :: rest =>
    if p = 0 then .ok (none, rest)
    else if p = 1 then
      match rest with
      | b3 :: b2 :: b1 :: b0 :: rest' => .ok (some (ofBe32 b3 b2 b1 b0), rest')
      | _ => .error .badLength
    else .error .badPresence

/-- A command whose operand is exactly one four-byte number. -/
def decodeNumber (mk : Nat → Instr) : List Byte → Except DecodeError Instr
  | [b3, b2, b1, b0] => .ok (mk (ofBe32 b3 b2 b1 b0))
  | _ => .error .badLength

/-- FA_ADDBYTE's operands: the Frame's handle, the byte (R101). -/
def decodeAddbyte : List Byte → Except DecodeError Instr
  | [b3, b2, b1, b0, x] => .ok (.faAddbyte (ofBe32 b3 b2 b1 b0) x)
  | _ => .error .badLength

/-- START's operands: the two handlers (R101). -/
def decodeStart (ops : List Byte) : Except DecodeError Instr :=
  match decodeHandler ops with
  | .error e => .error e
  | .ok (onFrame, rest) =>
    match decodeHandler rest with
    | .error e => .error e
    | .ok (onError, []) => .ok (.start onFrame onError)
    | .ok (_, _ :: _) => .error .badLength

/-- A command without operands. -/
def decodeBare (i : Instr) : List Byte → Except DecodeError Instr
  | [] => .ok i
  | _ :: _ => .error .badLength

/-! ### The decoder -/

/-- The operation codes (R99); 0x8 to 0xF are reserved and refused (R100). -/
def decodeOp (op : Byte) (ops : List Byte) : Except DecodeError Instr :=
  match op.toNat with
  | 0 => decodeAddbyte ops
  | 1 => decodeNumber .faReset ops
  | 2 => .ok (.crc16 ops)
  | 3 => .ok (.encode ops)
  | 4 => .ok (.send ops)
  | 5 => decodeNumber .read ops
  | 6 => decodeStart ops
  | 7 => decodeBare .stop ops
  | n => if n < 16 then .error .reservedOp else .error .wideOp

/-- The instruction of a receive symbol row for the byte `b` on the Frame `f`. -/
def rxInstr (sym : RxSym) (f : Nat) (b : Byte) : Instr :=
  match sym with
  | .endEsc => .rxEndEsc f
  | .endFin => .rxEndFin f
  | .endSkip => .rxEndSkip f
  | .esc => .rxEsc f
  | .dataEsc => .rxDataEsc f b
  | .data => .rxData f b

/-- The instruction of a transmit symbol row for the byte `x`. -/
def txInstr (x : Byte) : Instr :=
  match classifyTx x with
  | .esc7E => .txEsc7E
  | .esc7D => .txEsc7D
  | .lit => .txLit x

/-- A received byte: its meaning depends on the mode and the decoded length of the Frame it goes to (R94), which `view`
gives. -/
def decodeRx (view : Nat → AsmState × Nat) (b : Byte) : List Byte → Except DecodeError Instr
  | [b3, b2, b1, b0] =>
    let f := ofBe32 b3 b2 b1 b0
    .ok (rxInstr (classifyRx (view f).1 (view f).2 b) f b)
  | _ => .error .badLength

/-- The delimiter the transmitter emits by itself (R95, TX.FLAG). -/
def decodeFlag (b : Byte) (ops : List Byte) : Except DecodeError Instr :=
  if b = Config.endByte then decodeBare .txFlag ops else .error .notAFlag

/-- The decoder: total on every byte sequence, refusing by name. -/
def decode (view : Nat → AsmState × Nat) : List Byte → Except DecodeError Instr
  | b :: format :: ops =>
    if format = 0 then decodeOp b ops
    else if format = 1 then decodeRx view b ops
    else if format = 2 then decodeBare (txInstr b) ops
    else if format = 3 then decodeFlag b ops
    else .error .unknownFormat
  | _ => .error .badLength

/-! ### The encoder -/

/-- The command of an operation: its code, format 0, its operands. -/
def opCommand (op : Byte) (operands : List Byte) : List Byte := op :: 0 :: operands

/-- The command of a received byte: the byte, format 1, the Frame's handle. -/
def rxCommand (b : Byte) (f : Nat) : List Byte := b :: 1 :: be32 f

/-- The encoder: the command of an instruction, from the tables of R94, R95 and R99. -/
def encode : Instr → List Byte
  | .rxEndEsc f => rxCommand 0x7E f
  | .rxEndFin f => rxCommand 0x7E f
  | .rxEndSkip f => rxCommand 0x7E f
  | .rxEsc f => rxCommand 0x7D f
  | .rxDataEsc f b => rxCommand b f
  | .rxData f b => rxCommand b f
  | .txEsc7E => [0x7E, 2]
  | .txEsc7D => [0x7D, 2]
  | .txLit x => [x, 2]
  | .txFlag => [0x7E, 3]
  | .faAddbyte f b => opCommand 0x0 (be32 f ++ [b])
  | .faReset f => opCommand 0x1 (be32 f)
  | .crc16 s => opCommand 0x2 s
  | .encode p => opCommand 0x3 p
  | .send p => opCommand 0x4 p
  | .read t => opCommand 0x5 (be32 t)
  | .start onFrame onError => opCommand 0x6 (encodeHandler onFrame ++ encodeHandler onError)
  | .stop => opCommand 0x7 []

/-- The condition on the Frame in the row of a receive symbol (R94); the other instructions have none. -/
def Instr.rowCondition (view : Nat → AsmState × Nat) : Instr → Prop
  | .rxEndEsc f => (view f).1 = .escaping
  | .rxEndFin f => (view f).1 = .reading ∧ 3 ≤ (view f).2
  | .rxEndSkip f => (view f).1 = .reading ∧ (view f).2 < 3
  | .rxEsc f => (view f).1 = .reading
  | .rxDataEsc f _ => (view f).1 = .escaping
  | .rxData f _ => (view f).1 = .reading
  | .txEsc7E => True
  | .txEsc7D => True
  | .txLit _ => True
  | .txFlag => True
  | .faAddbyte _ _ => True
  | .faReset _ => True
  | .crc16 _ => True
  | .encode _ => True
  | .send _ => True
  | .read _ => True
  | .start _ _ => True
  | .stop => True

/-! ### The table's words (log entry 4) -/

/-- How many operand bytes the shortest command of an operation has. -/
def operandBytes (op : Nat) : Nat :=
  match op with
  | 0 => 5
  | 1 => 4
  | 5 => 4
  | 6 => 2
  | _ => 0

/-- The command laid out for a word of spec/opcode_table.json. The table's bits do not say which of its three tables a
word belongs to: a word below 16 is laid out as an operation code, any other as a received byte for the Frame 0, and
every operand byte is 0 (log entry 4, DESIGN CHOICE). -/
def layTableWord (w : Nat) : List Byte :=
  if w < 16 then BitVec.ofNat 8 w :: 0 :: List.replicate (operandBytes w) 0
  else BitVec.ofNat 8 w :: 1 :: List.replicate 4 0

/-- The view of an assembler whose every Frame is fresh (R41). -/
def freshView : Nat → AsmState × Nat := fun _ => (.reading, 0)

/-- The instruction the decoder reads from a word numbered as spec/opcode_table.json numbers it, with every Frame fresh. -/
def decodeTableWord (nbits w : Nat) : Option Instr :=
  if nbits ≤ 8 ∧ w < 2 ^ nbits then
    match decode freshView (layTableWord w) with
    | .ok i => some i
    | .error _ => none
  else none

end Sys2Proof
end

