-- ==== Sys2Proof/Machine/State.lean ====
section
/-! DEFINITION. The state of the machine: the Frame record (10_state.md R20 to R26), the Link Controller record (R30 to
R37), the transport's state (R38), and what a run is made of and leaves behind (70_reset_and_hazards.md R267, R268). -/

namespace Sys2Proof.Machine

/-- The result codes (R220, D4). Their numbers and messages are in Machine/Flags.lean. -/
inductive Status where
  | ok
  | eFraming
  | eTooBig
  | eCrc
  | sTimeout
  | sReaderRunning
  | sInternal
  | sTransport
  deriving DecidableEq, Repr

/-- A frame buffer: the bytes that hold a value, by index, indexes strictly rising (R22, R60). An index not listed holds
no value. -/
abbrev Memory := List Host.Cell

/-- The canonical form of a buffer: indexes strictly rising. An unlisted index holds no value, so no entry can equal what
it reads as. -/
abbrev Memory.wf (m : Memory) : Prop := m.Pairwise (fun x y => x.1 < y.1)

/-- The Frame record (R20). -/
structure Frame where
  /-- `F.state`, the decoder mode (R21). -/
  state    : AsmState
  /-- `F.data`, the buffer of MAX_FRAME bytes (R22). -/
  data     : Memory
  /-- `F.len`, the fill count (R22). -/
  len      : Nat
  /-- `F.crc`, the received checksum (R23). -/
  crc      : Word16
  /-- `F.finished` (R24). -/
  finished : Bool
  /-- `F.error` (R25). -/
  error    : Bool
  /-- `F.err_code` (R26). -/
  errCode  : Status
  deriving DecidableEq, Repr

/-- The Link Controller record (R30). -/
structure LinkController where
  /-- `LC.transport`, the identity of the transport (R31). -/
  transport     : Nat
  /-- `LC.current_frame` (R32). -/
  currentFrame  : Option Frame
  /-- `LC.last_frame` (R33). -/
  lastFrame     : Option Frame
  /-- `LC.frame_callback` (R34). -/
  frameCallback : Option Nat
  /-- `LC.error_callback` (R34). -/
  errorCallback : Option Nat
  /-- `LC.running` (R35). -/
  running       : Bool
  /-- `LC.worker_alive` (R36). -/
  workerAlive   : Bool
  /-- `LC.deadline` (R37): the timeout the last READ was given; it is read only through `Expired()`. -/
  deadline      : Nat
  deriving DecidableEq, Repr

/-- The transport's state (R38, R74), the environment's own. -/
structure Transport where
  /-- `rxq`, the received bytes not yet read, oldest first. -/
  rxq        : List Byte
  /-- `rx_closed`, whether the stream has ended. -/
  rxClosed   : Bool
  /-- The environment's plan to set `rx_closed` once this many more bytes have been read, so that a closure can strike
  inside a poll iteration (R74, R78; log entry 12). -/
  closeAfter : Option Nat
  /-- `txlog`, all bytes handed to `write` so far. -/
  txlog      : List Byte
  deriving DecidableEq, Repr

/-- What the single foreground context is inside of (R8, R39). -/
inductive Foreground where
  /-- No operation is in progress. -/
  | idle
  /-- Inside READ's loop (R182): the Blocking mode. -/
  | reading
  /-- Inside STOP's wait for the worker (R206). -/
  | stopping
  deriving DecidableEq, Repr

/-- The result of one operation (R101). -/
inductive Result where
  /-- FA_ADDBYTE and the receive symbols: whether this byte terminated the frame (R120). -/
  | terminal (t : Bool)
  /-- CRC16 (R150). -/
  | crc (c : Word16)
  /-- ENCODE (R160), and the wire bytes of a transmit symbol (R95). -/
  | bytes (s : List Byte)
  /-- SEND: S_OK with the transport's count (R176). -/
  | sent (n : Nat)
  /-- READ: S_OK with the payload (R183). -/
  | payload (p : List Byte)
  /-- The status of START or STOP, or the status a READ ends with when it raises (R182). -/
  | status (c : Status)
  deriving DecidableEq, Repr

/-- One handler invocation `Emit(h, kind, v)` by the worker (R12, R236). -/
inductive Event where
  /-- The frame event: a payload, to the frame handler (R204). -/
  | frame (h : Nat) (p : List Byte)
  /-- The error event: a code, to the error handler (R205). -/
  | error (h : Nat) (c : Status)
  deriving DecidableEq, Repr

/-- One entry of a run's sequence of results and handler calls (R268). -/
inductive Output where
  /-- An operation returned this result, or ended with it. -/
  | result (r : Result)
  /-- The worker invoked a handler. -/
  | event (e : Event)
  deriving DecidableEq, Repr

/-- What moves next, from outside the block (R8, R267; log entry 8). -/
inductive Input where
  /-- The foreground issues the operation that this command encodes. -/
  | op (command : List Byte)
  /-- The environment appends bytes to the receive stream (R74). -/
  | append (s : List Byte)
  /-- The environment closes the receive stream (R74). -/
  | close
  /-- The environment will close the receive stream once `n` more bytes have been read (R74, log entry 12). -/
  | closeAfter (n : Nat)
  /-- The foreground, inside READ or STOP, takes its turn. -/
  | foreground
  /-- The worker takes its turn. -/
  | worker
  deriving DecidableEq, Repr

/-- Why the machine stops with a fault. No fault is reachable from a state that meets `State.Inv`: R62 says that neither
access primitive can fault. All are safe (log entry 17). -/
inductive Fault where
  /-- `MemRead(F, i, n)` with i + n > F.len (R62). Raised by Frame.memRead. Safe. -/
  | readPastLen
  /-- `MemRead` of an index below F.len that holds no value (R22). Raised by Frame.memRead. Safe. -/
  | readUnwritten
  /-- `MemWrite(F, i, 1, v)` with i at or above MAX_FRAME (R62). Raised by Frame.memWrite. Safe. -/
  | writePastEnd
  deriving DecidableEq, Repr

/-- Why the machine gives an instruction no meaning. -/
inductive Refusal where
  /-- The instruction has no meaning yet. Raised by exec's arms only. Safe. -/
  | notModelled (mnemonic : String)
  /-- FA_ADDBYTE, or a receive symbol, on a Frame with `finished = 1` (R121, U2). Raised by Frame.addByte. Safe. -/
  | frameFinished
  /-- A receive symbol whose row of R94 is not the first that matches the byte and the Frame, or a transmit literal of a
  reserved byte (R95). Never raised by a decoded command. Raised by runSymbol and execTxLit. Safe (log entry 6). -/
  | symbolNotSelected
  /-- SEND, READ, START or STOP while the foreground is inside READ or STOP (R190, R237). Never raised by step. Raised by
  whenIdle. Safe (log entry 22). -/
  | foregroundBusy
  /-- READ in Background mode (R191, U1). Raised by execRead. Safe. -/
  | readWhileReaderRuns
  /-- A command that is no instruction; a reserved operation code (R100, U9) among them. Raised by step. Safe. -/
  | undecodable (e : DecodeError)
  deriving DecidableEq, Repr

/-- A stop of a shared operation, before it becomes the outcome of a step. -/
inductive Stop where
  | fault (r : Fault)
  | refused (r : Refusal)
  deriving DecidableEq, Repr

/-- The state of the machine. -/
structure State where
  /-- The standalone Frames (R20) by handle, handles strictly rising, fresh ones left out (log entry 5). -/
  frames     : List (Nat × Frame)
  /-- The Link Controller. -/
  lc         : LinkController
  /-- The transport it is bound to. -/
  env        : Transport
  /-- The answers `Expired()` will give at its coming tests; false once they are used up (R37, U10; log entry 10). -/
  clock      : List Bool
  /-- The operation the foreground is inside of. -/
  foreground : Foreground
  /-- The results of operations and the handler invocations so far, one sequence, oldest first (R268; log entry 24). -/
  outputs    : List Output
  /-- What is to move next, oldest first. -/
  inputs     : List Input
  deriving DecidableEq, Repr

/-- The machine right after the construction of its Link Controller (R42, R252, R267). The transport's identity and its
contents are the environment's (R31, R38); log entry 13 names the values taken here. -/
def State.reset : State where
  frames := []
  lc :=
    { transport := 0, currentFrame := none, lastFrame := none, frameCallback := none, errorCallback := none,
      running := false, workerAlive := false, deadline := 0 }
  env := { rxq := [], rxClosed := false, closeAfter := none, txlog := [] }
  clock := []
  foreground := .idle
  outputs := []
  inputs := []

end Sys2Proof.Machine
end

