-- ==== Sys2Proof/Machine/Sparse.lean ====
section
/-! DEFINITION. Lists of (key, value) pairs with keys strictly rising: the one shape of the frame buffer (R22, R60) and of
the bank of standalone Frames (R20). -/

namespace Sys2Proof.Machine

/-- The value at a key, if the key is listed. -/
def lookupKey {α : Type} : List (Nat × α) → Nat → Option α
  | [], _ => none
  | (k, v) :: m, a => if k = a then some v else lookupKey m a

/-- The list with the value at a key set. -/
def insertKey {α : Type} : List (Nat × α) → Nat → α → List (Nat × α)
  | [], a, v => [(a, v)]
  | (k, w) :: m, a, v =>
    if a < k then (a, v) :: (k, w) :: m
    else if a = k then (a, v) :: m
    else (k, w) :: insertKey m a v

/-- The list without a key. -/
def eraseKey {α : Type} (m : List (Nat × α)) (a : Nat) : List (Nat × α) := m.filter (fun c => c.1 ≠ a)

/-- The list without the keys at or above a bound. -/
def belowKey {α : Type} (m : List (Nat × α)) (n : Nat) : List (Nat × α) := m.filter (fun c => c.1 < n)

/-- The byte a buffer holds at an index, if it holds one (R22). -/
def Memory.read (m : Memory) (a : Nat) : Option Byte := lookupKey m a

/-- The buffer with a byte stored at an index (R61). -/
def Memory.write (m : Memory) (a : Nat) (v : Byte) : Memory := insertKey m a v

/-- The buffer cut to the indexes below `n`: the trim of Finish (R61, R131). -/
def Memory.trim (m : Memory) (n : Nat) : Memory := belowKey m n

/-- The `n` bytes from index `i` on, if all of them hold a value. -/
def Memory.readRange (m : Memory) (i : Nat) : Nat → Option (List Byte)
  | 0 => some []
  | n + 1 =>
    match m.read i, Memory.readRange m (i + 1) n with
    | some b, some s => some (b :: s)
    | _, _ => none

end Sys2Proof.Machine
end

