-- ==== Sys2Proof/Machine/Flags.lean ====
section
/-! DEFINITION. The flags of a Frame, `finished`, `error` and `err_code` (10_state.md R24 to R26), how each writer of them
sets them, and the numbers and messages of the result codes (60_exceptions.md R220). -/

namespace Sys2Proof.Machine

/-- The number of a result code, 4 bits (R220). -/
def Status.code : Status → BitVec 4
  | .ok => 0
  | .eFraming => 1
  | .eTooBig => 2
  | .eCrc => 3
  | .sTimeout => 4
  | .sReaderRunning => 5
  | .sInternal => 6
  | .sTransport => 7

/-- The message of a result code, byte for byte; the source gives only these three (R26, R220). -/
def Status.message : Status → Option String
  | .eFraming => some "invalid framing (got end in escape mode)"
  | .eTooBig => some "frame too big"
  | .eCrc => some "Invalid Frame (CRC FAIL)"
  | _ => none

/-- The flags as Abort writes them (R132). -/
def Frame.failFlags (F : Frame) (c : Status) : Frame := { F with error := true, finished := true, errCode := c }

/-- The flags as Finish writes them on a match; `err_code` is not written (R131). -/
def Frame.successFlags (F : Frame) : Frame := { F with finished := true, error := false }

/-- The flags as `reset` writes them (R133). -/
def Frame.clearFlags (F : Frame) : Frame := { F with finished := false, error := false, errCode := .ok }

/-- The status a result carries, for the results that carry one (R228). -/
def Result.code : Result → Option Status
  | .terminal _ => none
  | .crc _ => none
  | .bytes _ => none
  | .sent _ => some .ok
  | .payload _ => some .ok
  | .status c => some c

/-- The codes each operation can return (R228); `none` stands for a result without a status. -/
def returnedCodes : Instr → List (Option Status)
  | .rxEndEsc _ => [none]
  | .rxEndFin _ => [none]
  | .rxEndSkip _ => [none]
  | .rxEsc _ => [none]
  | .rxDataEsc _ _ => [none]
  | .rxData _ _ => [none]
  | .txEsc7E => [none]
  | .txEsc7D => [none]
  | .txLit _ => [none]
  | .txFlag => [none]
  | .faAddbyte _ _ => [none]
  | .faReset _ => []
  | .crc16 _ => [none]
  | .encode _ => [none]
  | .send _ => [some .ok]
  | .read _ =>
    [some .ok, some .eFraming, some .eTooBig, some .eCrc, some .sTimeout, some .sInternal, some .sTransport]
  | .start _ _ => [some .ok, some .sReaderRunning]
  | .stop => [some .ok]

end Sys2Proof.Machine
end

