-- ==== Sys2Proof/Machine/Crc.lean ====
section
/-! DEFINITION. The checksum function (41_crc16.md R150 to R156) and the serialisation of its value (R63, R153). -/

namespace Sys2Proof.Machine

/-- One shift of the register: left by one, and XOR with the polynomial if the bit shifted out was 1 (R152). -/
def crcShift (r : Word16) : Word16 := if r.msb then (r <<< 1) ^^^ Config.crcPoly else r <<< 1

/-- `n` shifts of the register. -/
def crcShifts : Nat → Word16 → Word16
  | 0, r => r
  | n + 1, r => crcShifts n (crcShift r)

/-- The byte XORed into the high half of the register (R152, R155). -/
def crcLoad (r : Word16) (b : Byte) : Word16 := r ^^^ (b.setWidth 16 <<< 8)

/-- `crc_init` of the streaming form (R156). -/
def crcStart : Word16 := Config.crcInit

/-- `crc_update`: the loop body of R152 for one byte (R156). -/
def crcUpdate (r : Word16) (b : Byte) : Word16 := crcShifts 8 (crcLoad r b)

/-- CRC16 of a byte sequence: the bytes in order, first to last (R152). -/
def crc16 (s : List Byte) : Word16 := s.foldl crcUpdate crcStart

/-- The checksum as two bytes, most significant first (R63, R153). -/
def crcBytes (c : Word16) : List Byte := [c.extractLsb' 8 8, c.extractLsb' 0 8]

/-- Two bytes, high byte first, as a checksum (R23, R63). -/
def crcOfBytes (hi lo : Byte) : Word16 := hi ++ lo

end Sys2Proof.Machine
end

