-- ==== Sys2Proof/Machine/Operands.lean ====
section
/-! DEFINITION. The operand forms: the Frame operand of FA_ADDBYTE, FA_RESET and the receive symbols, and the byte operand
of an escape pair (30_encoding.md R92, R101). A byte sequence, a duration and a handler identity are the values themselves. -/

namespace Sys2Proof.Machine

/-- The byte an escape pair stands for, and the byte an escape pair carries (R92). -/
def maskByte (b : Byte) : Byte := b ^^^ Config.xmask

/-- A fresh Frame: a Frame just instantiated, and what `reset` produces (R41, R134). -/
def Frame.fresh : Frame where
  state := .reading
  data := []
  len := 0
  crc := 0
  finished := false
  error := false
  errCode := .ok

/-- The standalone Frame of a handle. A handle not yet used names a Frame just instantiated (R134, log entry 5). -/
def State.frameAt (s : State) (f : Nat) : Frame := (lookupKey s.frames f).getD Frame.fresh

/-- The standalone Frame of a handle replaced. A fresh Frame is left out of the list, so that equal banks are equal data. -/
def State.setFrame (s : State) (f : Nat) (F : Frame) : State :=
  { s with frames := if F = Frame.fresh then eraseKey s.frames f else insertKey s.frames f F }

/-- The form of the bank of standalone Frames: handles strictly rising, no fresh Frame listed. -/
abbrev bankWf (m : List (Nat × Frame)) : Prop :=
  m.Pairwise (fun x y => x.1 < y.1) ∧ ∀ c ∈ m, c.2 ≠ Frame.fresh

/-- What a received byte's decoding depends on: the mode and the decoded length of the Frame it goes to (R94). -/
def State.view (s : State) : Nat → AsmState × Nat := fun f => ((s.frameAt f).state, (s.frameAt f).len)

end Sys2Proof.Machine
end

