-- ==== Sys2Proof/Machine/Ops.lean ====
section
/-! DEFINITION. The named operations over memory, the streams and the records that the meanings share: the access
primitives (00_scope.md R12), the transport (20_memory.md R74), taking a decode error and going on after it
(60_exceptions.md R230, R232), construction (43_link_blocking.md R175). -/

namespace Sys2Proof.Machine

/-- The outcome of a step on this machine. -/
abbrev StepOutcome := Host.Outcome State Fault Refusal

/-- A stop as the outcome of a step. -/
def Stop.outcome : Stop → StepOutcome
  | .fault r => .fault r
  | .refused r => .refused r

/-! ### The frame buffer -/

/-- `MemRead(F, i, n)` (R62): defined only for i + n <= F.len. -/
def Frame.memRead (F : Frame) (i n : Nat) : Except Stop (List Byte) :=
  if i + n ≤ F.len then
    match F.data.readRange i n with
    | some s => .ok s
    | none => .error (.fault .readUnwritten)
  else .error (.fault .readPastLen)

/-- `MemWrite(F, i, 1, v)` (R62): requires i < MAX_FRAME. -/
def Frame.memWrite (F : Frame) (i : Nat) (v : Byte) : Except Stop Frame :=
  if i < Config.maxFrame then .ok { F with data := F.data.write i v }
  else .error (.fault .writePastEnd)

/-! ### Exceptions: taking one, and going on -/

/-- Abort (R132): the decode error recorded in the Frame, and the result of the byte that met it (R230). -/
def Frame.abort (F : Frame) (c : Status) : Frame × Bool := (F.failFlags c, true)

/-- The handoff of a Frame that finished, with success or with error (R181, R230). -/
def LinkController.handoff (lc : LinkController) (F : Frame) : LinkController :=
  { lc with lastFrame := some F, currentFrame := none }

/-- The Frame the next received byte goes to: a fresh one if there is none, so also after every terminal result (R179,
R232). -/
def LinkController.frameForByte (lc : LinkController) : Frame := lc.currentFrame.getD Frame.fresh

/-! ### The sequence of results and handler calls (R268) -/

/-- The result in an entry, if it is one. -/
def Output.result? : Output → Option Result
  | .result r => some r
  | .event _ => none

/-- The handler invocation in an entry, if it is one. -/
def Output.event? : Output → Option Event
  | .result _ => none
  | .event e => some e

/-- The results of the operations so far, oldest first. -/
def State.results (s : State) : List Result := s.outputs.filterMap Output.result?

/-- The handler invocations so far, oldest first. -/
def State.events (s : State) : List Event := s.outputs.filterMap Output.event?

/-- The operation gives its caller a result. -/
def State.returns (s : State) (r : Result) : State := { s with outputs := s.outputs ++ [.result r] }

/-- The operation the foreground is inside of ends with a result: a return, or a `raise` (R12). -/
def State.endOp (s : State) (r : Result) : State := { s.returns r with foreground := .idle }

/-- `Emit` (R12): one handler invocation, which returns at once (R210; log entry 19). -/
def State.emit (s : State) (e : Event) : State := { s with outputs := s.outputs ++ [.event e] }

/-! ### The transport (R73, R74) -/

/-- `RxAvail()`: the number of bytes pending, closed or not. -/
def Transport.rxAvail (t : Transport) : Nat := t.rxq.length

/-- The environment closes the stream if its plan has come due (log entry 12). -/
def Transport.settle (t : Transport) : Transport :=
  match t.closeAfter with
  | some 0 => { t with rxClosed := true, closeAfter := none }
  | _ => t

/-- `RxPop()`: the head of `rxq`, removed; or `EOS` (none), nothing removed, if the stream is closed or empty. -/
def Transport.rxPop (t : Transport) : Option Byte × Transport :=
  let u := t.settle
  if u.rxClosed then (none, u)
  else
    match u.rxq with
    | [] => (none, u)
    | b :: q => (some b, { u with rxq := q, closeAfter := u.closeAfter.map (· - 1) })

/-- `RxFlush()`: `rxq` becomes empty. -/
def Transport.rxFlush (t : Transport) : Transport := { t with rxq := [] }

/-- `TxWrite(s)`: appends `s` to `txlog`; its count is `|s|`. -/
def Transport.txWrite (t : Transport) (s : List Byte) : Transport := { t with txlog := t.txlog ++ s }

/-- The environment appends bytes to `rxq`; nothing once the stream is closed. -/
def Transport.receive (t : Transport) (s : List Byte) : Transport :=
  if t.rxClosed then t else { t with rxq := t.rxq ++ s }

/-- The environment sets `rx_closed`. -/
def Transport.close (t : Transport) : Transport := { t with rxClosed := true, closeAfter := none }

/-- The environment plans to set `rx_closed` after `n` more bytes; nothing once the stream is closed. -/
def Transport.planClose (t : Transport) (n : Nat) : Transport :=
  if t.rxClosed then t else { t with closeAfter := some n }

/-! ### Time -/

/-- `Expired()` (R12, R37): true at once for a timeout of 0 (R186), otherwise the environment's next answer. -/
def State.expired (s : State) : Bool × State :=
  if s.lc.deadline = 0 then (true, s)
  else
    match s.clock with
    | [] => (false, s)
    | e :: es => (e, { s with clock := es })

/-! ### Construction (R175, R252) -/

/-- The state right after the construction of a Link Controller on the transport `t`, with environment state `env`:
R42's values, then one `RxFlush()` if FLUSH_ON_INIT is true. -/
def State.construct (t : Nat) (env : Transport) : State where
  frames := []
  lc :=
    { transport := t, currentFrame := none, lastFrame := none, frameCallback := none, errorCallback := none,
      running := false, workerAlive := false, deadline := 0 }
  env := if Config.flushOnInit then env.rxFlush else env
  clock := []
  foreground := .idle
  outputs := []
  inputs := []

end Sys2Proof.Machine
end

