-- ==== Sys2Proof/Machine/Checksum.lean ====
section
/-! DEFINITION. The operation CRC16 (41_crc16.md R150). -/

namespace Sys2Proof.Machine

/-- CRC16 (R150): reads and writes no state; its result is the checksum of its operand. -/
def execCrc16 (x : List Byte) (s : State) : StepOutcome := .next (s.returns (.crc (crc16 x)))

end Sys2Proof.Machine
end

