-- ==== Sys2Proof/Machine/FrameAssembler.lean ====
section
/-! DEFINITION. The Frame Assembler (40_frame_assembler.md): the six receive symbols, FA_ADDBYTE, FA_RESET, the internal
procedures Append and Finish, and the pseudo-operation `decode` (42_wire_encoder.md R168). -/

namespace Sys2Proof.Machine

/-! ### Internal procedures -/

/-- Append(F, v) (R129): the byte stored at the end of the buffer, unless the buffer is full (R130). -/
def Frame.append (F : Frame) (v : Byte) : Except Stop (Frame × Bool) :=
  if F.len = Config.maxFrame then .ok (F.abort .eTooBig)
  else
    match F.memWrite F.len v with
    | .error e => .error e
    | .ok G => .ok ({ G with len := F.len + 1 }, false)

/-- The buffer trimmed to its first `n` bytes, the payload (R61, R131). -/
def Frame.trimTo (F : Frame) (n : Nat) : Frame := { F with data := F.data.trim n, len := n }

/-- Finish(F) (R131): the received checksum is recorded, then compared with the checksum of the payload. -/
def Frame.finish (F : Frame) : Except Stop (Frame × Bool) :=
  match F.memRead (F.len - 2) 2, F.memRead 0 (F.len - 2) with
  | .ok [hi, lo], .ok p =>
    let G := { F with crc := crcOfBytes hi lo }
    if crc16 p = crcOfBytes hi lo then .ok ((G.trimTo (F.len - 2)).successFlags, true)
    else .ok (G.abort .eCrc)
  | .error e, _ => .error e
  | .ok _, .error e => .error e
  | .ok _, .ok _ => .error (.fault .readUnwritten)

/-! ### The arms of `addByte` -/

/-- Arm RX.END.ESC (R122). -/
def Frame.armEndEsc (F : Frame) : Except Stop (Frame × Bool) := .ok (F.abort .eFraming)

/-- Arm RX.END.FIN (R123). -/
def Frame.armEndFin (F : Frame) : Except Stop (Frame × Bool) := F.finish

/-- Arm RX.END.SKIP (R124): nothing is written. -/
def Frame.armEndSkip (F : Frame) : Except Stop (Frame × Bool) := .ok (F, false)

/-- Arm RX.ESC (R125). -/
def Frame.armEsc (F : Frame) : Except Stop (Frame × Bool) := .ok ({ F with state := .escaping }, false)

/-- Arm RX.DATA.ESC (R127, R128): the mode returns to Reading before the length test. -/
def Frame.armDataEsc (F : Frame) (b : Byte) : Except Stop (Frame × Bool) :=
  { F with state := .reading }.append (maskByte b)

/-- Arm RX.DATA (R126). -/
def Frame.armData (F : Frame) (b : Byte) : Except Stop (Frame × Bool) := F.append b

/-- The arm of a receive symbol. -/
def Frame.arm (F : Frame) (sym : RxSym) (b : Byte) : Except Stop (Frame × Bool) :=
  match sym with
  | .endEsc => F.armEndEsc
  | .endFin => F.armEndFin
  | .endSkip => F.armEndSkip
  | .esc => F.armEsc
  | .dataEsc => F.armDataEsc b
  | .data => F.armData b

/-- `addByte(F, b)` (R120, R138): refused on a finished Frame (R121), else the arm R94 selects. -/
def Frame.addByte (F : Frame) (b : Byte) : Except Stop (Frame × Bool) :=
  if F.finished then .error (.refused .frameFinished)
  else F.arm (classifyRx F.state F.len b) b

/-- `reset()` (R133): every field of the Frame written. -/
def Frame.reset (F : Frame) : Frame := { F.clearFlags with state := .reading, data := [], len := 0, crc := 0 }

/-! ### The meanings -/

/-- A standalone Frame after one byte, and the byte's result to the caller. -/
def State.putFrame (s : State) (f : Nat) (F : Frame) (t : Bool) : State := (s.setFrame f F).returns (.terminal t)

/-- One byte fed to the standalone Frame `f`. -/
def feedFrame (f : Nat) (b : Byte) (s : State) : StepOutcome :=
  match (s.frameAt f).addByte b with
  | .error e => e.outcome
  | .ok (F, t) => .next (s.putFrame f F t)

/-- A receive symbol as an instruction: the byte fed to the Frame, where the symbol's row is the one R94 selects for it
(log entry 6). A finished Frame is refused by `addByte` whatever its row (R121). -/
def runSymbol (sym : RxSym) (f : Nat) (b : Byte) (s : State) : StepOutcome :=
  if (s.frameAt f).finished = true ∨ classifyRx (s.frameAt f).state (s.frameAt f).len b = sym then feedFrame f b s
  else .refused .symbolNotSelected

/-- RX.END.ESC (R122). -/
def execRxEndEsc (f : Nat) (s : State) : StepOutcome := runSymbol .endEsc f Config.endByte s

/-- RX.END.FIN (R123). -/
def execRxEndFin (f : Nat) (s : State) : StepOutcome := runSymbol .endFin f Config.endByte s

/-- RX.END.SKIP (R124). -/
def execRxEndSkip (f : Nat) (s : State) : StepOutcome := runSymbol .endSkip f Config.endByte s

/-- RX.ESC (R125). -/
def execRxEsc (f : Nat) (s : State) : StepOutcome := runSymbol .esc f Config.escByte s

/-- RX.DATA.ESC (R127, R128). -/
def execRxDataEsc (f : Nat) (b : Byte) (s : State) : StepOutcome := runSymbol .dataEsc f b s

/-- RX.DATA (R126). -/
def execRxData (f : Nat) (b : Byte) (s : State) : StepOutcome := runSymbol .data f b s

/-- FA_ADDBYTE (R120). -/
def execFaAddbyte (f : Nat) (b : Byte) (s : State) : StepOutcome := feedFrame f b s

/-- FA_RESET (R133): in any state of the Frame, finished or not; it gives no result. -/
def execFaReset (f : Nat) (s : State) : StepOutcome := .next (s.setFrame f (s.frameAt f).reset)

/-! ### The pseudo-operation `decode` (R102, R168) -/

/-- What `decode` answers (R168). -/
inductive DecodeResult where
  | ok (p : List Byte)
  | err (c : Status)
  | pending
  deriving DecidableEq, Repr

/-- The bytes of `s` fed in order to a Frame, up to the first that terminates it: the Frame, whether one did, and the bytes
after it. -/
def Frame.feed (F : Frame) : List Byte → Except Stop (Frame × Bool × List Byte)
  | [] => .ok (F, false, [])
  | b :: s =>
    match F.addByte b with
    | .error e => .error e
    | .ok (G, true) => .ok (G, true, s)
    | .ok (G, false) => Frame.feed G s

/-- `decode(s)` (R168): a fresh Frame fed with `s`. -/
def wireDecode (s : List Byte) : Except Stop DecodeResult :=
  match Frame.fresh.feed s with
  | .error e => .error e
  | .ok (_, false, _) => .ok .pending
  | .ok (F, true, _) =>
    if F.error then .ok (.err F.errCode)
    else
      match F.memRead 0 F.len with
      | .error e => .error e
      | .ok p => .ok (.ok p)

end Sys2Proof.Machine
end

