-- ==== Sys2Proof/Machine/WireEncoder.lean ====
section
/-! DEFINITION. The wire encoder (42_wire_encoder.md R160 to R163): byte stuffing, ENCODE, and the four transmit symbols. -/

namespace Sys2Proof.Machine

/-- The wire bytes of one byte of `payload || crc` (R95, R162). -/
def stuffByte (x : Byte) : List Byte :=
  match classifyTx x with
  | .esc7E => [Config.escByte, maskByte Config.endByte]
  | .esc7D => [Config.escByte, maskByte Config.escByte]
  | .lit => [x]

/-- Byte stuffing (R162). -/
def stuff (q : List Byte) : List Byte := q.flatMap stuffByte

/-- `payload || crc` (R161). -/
def withCrc (p : List Byte) : List Byte := p ++ crcBytes (crc16 p)

/-- `encode(p)`: the stuffed image of `payload || crc` between two delimiters (R160, R163). -/
def wireEncode (p : List Byte) : List Byte := [Config.endByte] ++ stuff (withCrc p) ++ [Config.endByte]

/-- ENCODE (R160): reads and writes no state; no check on the length of `p` (R166). -/
def execEncode (p : List Byte) (s : State) : StepOutcome := .next (s.returns (.bytes (wireEncode p)))

/-- TX.ESC7E (R95). -/
def execTxEsc7E (s : State) : StepOutcome := .next (s.returns (.bytes (stuffByte Config.endByte)))

/-- TX.ESC7D (R95). -/
def execTxEsc7D (s : State) : StepOutcome := .next (s.returns (.bytes (stuffByte Config.escByte)))

/-- TX.LIT (R95): a byte that is not reserved. -/
def execTxLit (x : Byte) (s : State) : StepOutcome :=
  if classifyTx x = .lit then .next (s.returns (.bytes (stuffByte x)))
  else .refused .symbolNotSelected

/-- TX.FLAG (R95, R163). -/
def execTxFlag (s : State) : StepOutcome := .next (s.returns (.bytes [Config.endByte]))

end Sys2Proof.Machine
end

