-- ==== Sys2Proof/Machine/Link.lean ====
section
/-! DEFINITION. The Link Controller (43_link_blocking.md, 44_link_background.md): SEND, the poll iteration DrainOnce, READ,
START, STOP and the worker. -/

namespace Sys2Proof.Machine

/-- SEND, READ, START and STOP are issued by the single foreground context, which issues none while it is inside READ or
STOP (R8, R190, R237; log entry 22). -/
def whenIdle (s : State) (o : StepOutcome) : StepOutcome :=
  match s.foreground with
  | .idle => o
  | .reading => .refused .foregroundBusy
  | .stopping => .refused .foregroundBusy

/-! ### SEND -/

/-- SEND (R176): one write of the whole encoded frame; the count is returned with S_OK. -/
def execSend (p : List Byte) (s : State) : StepOutcome :=
  whenIdle s (.next ({ s with env := s.env.txWrite (wireEncode p) }.returns (.sent (wireEncode p).length)))

/-! ### The poll iteration -/

/-- How a poll iteration ends (R178). -/
inductive Drained where
  /-- The sampled count was 0. -/
  | noData
  /-- All sampled bytes fed, no terminal result. -/
  | drained
  /-- A byte finished this Frame, which is now `last_frame`. -/
  | terminal (F : Frame)
  /-- The transport returned a short read. -/
  | eos
  deriving DecidableEq, Repr

/-- The loop of DrainOnce (R178): at most `n` bytes read one at a time and fed, up to the first terminal result. -/
def drainLoop : Nat → LinkController → Transport → Except Stop (LinkController × Transport × Drained)
  | 0, lc, t => .ok (lc, t, .drained)
  | n + 1, lc, t =>
    match t.rxPop with
    | (none, u) => .ok (lc, u, .eos)
    | (some b, u) =>
      match lc.frameForByte.addByte b with
      | .error e => .error e
      | .ok (F, true) => .ok (lc.handoff F, u, .terminal F)
      | .ok (F, false) => drainLoop n { lc with currentFrame := some F } u

/-- DrainOnce (R178): the available count is sampled once. -/
def drainOnce (lc : LinkController) (t : Transport) : Except Stop (LinkController × Transport × Drained) :=
  if t.rxAvail = 0 then .ok (lc, t, .noData) else drainLoop t.rxAvail lc t

/-! ### What a terminal Frame means to its consumer (R182, R202) -/

/-- The three cases of a terminal result. -/
inductive Verdict where
  /-- finished = 1 and error = 0: the payload (R183, R204). -/
  | success (p : List Byte)
  /-- finished = 1 and error = 1: the recorded code (R184, R205). -/
  | failure (c : Status)
  /-- Any other combination (R185, R213). -/
  | inconsistent
  deriving DecidableEq, Repr

/-- The case of a terminal Frame. -/
def Frame.verdict (F : Frame) : Except Stop Verdict :=
  if F.finished = true ∧ F.error = false then
    match F.memRead 0 F.len with
    | .error e => .error e
    | .ok p => .ok (.success p)
  else if F.finished = true ∧ F.error = true then .ok (.failure F.errCode)
  else .ok .inconsistent

/-! ### READ -/

/-- What READ answers its caller on a terminal result (R183 to R185). -/
def Verdict.readResult : Verdict → Result
  | .success p => .payload p
  | .failure c => .status c
  | .inconsistent => .status .sInternal

/-- READ's action on the result of a poll iteration (R182); `s` is the state after it. -/
def readDispatch (d : Drained) (s : State) : StepOutcome :=
  match d with
  | .noData => .next s
  | .drained => .next s
  | .eos => .next (s.endOp (.status .sTransport))
  | .terminal F =>
    match F.verdict with
    | .error e => e.outcome
    | .ok v => .next (s.endOp v.readResult)

/-- One poll iteration of READ after its deadline test. -/
def readPoll (s : State) : StepOutcome :=
  match drainOnce s.lc s.env with
  | .error e => e.outcome
  | .ok (lc, env, d) => readDispatch d { s with lc := lc, env := env }

/-- One iteration of READ's loop (R182): the deadline is tested first (R186, R229). -/
def readIteration (s : State) : StepOutcome :=
  if s.expired.1 then .next (s.expired.2.endOp (.status .sTimeout))
  else readPoll s.expired.2

/-- The operating modes (R237). -/
inductive Mode where
  | idle
  | blocking
  | background
  deriving DecidableEq, Repr

/-- The operating mode, by R237's definition of each mode from the state. DESIGN CHOICE (log entry 28): R237 also says that
Background ends when STOP returns, and where the worker has exited and STOP has not returned yet the two differ. The model
follows the definition there: the mode is Idle from the worker's exit on, at least one step before STOP returns. -/
def State.mode (s : State) : Mode :=
  if s.lc.workerAlive then .background
  else
    match s.foreground with
    | .reading => .blocking
    | .idle => .idle
    | .stopping => .idle

/-- Whether a READ would meet the background reader: `running = 1` (R191), or the Background mode (R237, R256). -/
def State.background (s : State) : Bool := s.lc.running || s.lc.workerAlive

/-- The state at the top of READ's loop: the deadline is set (R182). -/
def State.beginRead (s : State) (timeout : Nat) : State :=
  { s with lc := { s.lc with deadline := timeout }, foreground := .reading }

/-- READ (R182): the deadline set and the first iteration of the loop run; where that does not end it, the foreground stays
inside READ and later turns run the next iterations (log entry 9). -/
def execRead (timeout : Nat) (s : State) : StepOutcome :=
  whenIdle s
    (if s.background then .refused .readWhileReaderRuns else readIteration (s.beginRead timeout))

/-! ### START and STOP -/

/-- A reader session begun: the handlers registered, the flag set, the worker created (R200). -/
def LinkController.startReader (lc : LinkController) (onFrame onError : Option Nat) : LinkController :=
  { lc with frameCallback := onFrame, errorCallback := onError, running := true, workerAlive := true }

/-- START (R200, R201): test and set of `running` in one step (R75). -/
def execStart (onFrame onError : Option Nat) (s : State) : StepOutcome :=
  whenIdle s
    (if s.lc.running then .next (s.returns (.status .sReaderRunning))
     else .next ({ s with lc := s.lc.startReader onFrame onError }.returns (.status .ok)))

/-- The flag cleared by STOP (R206). -/
def State.clearRunning (s : State) : State := { s with lc := { s.lc with running := false } }

/-- STOP (R206): the flag cleared; the return waits for the worker's exit, and comes at once if there is none (R208). -/
def execStop (s : State) : StepOutcome :=
  whenIdle s
    (if s.lc.workerAlive then .next { s.clearRunning with foreground := .stopping }
     else .next (s.clearRunning.returns (.status .ok)))

/-! ### The worker -/

/-- The handler invocation of a terminal result, if its handler is present (R204, R205, R209, R213). -/
def Verdict.event (lc : LinkController) : Verdict → Option Event
  | .success p => lc.frameCallback.map (fun h => .frame h p)
  | .failure c => lc.errorCallback.map (fun h => .error h c)
  | .inconsistent => lc.errorCallback.map (fun h => .error h .sInternal)

/-- The worker's action on the result of a poll iteration (R202); `s` is the state after it. -/
def workerDispatch (d : Drained) (s : State) : StepOutcome :=
  match d with
  | .noData => .next s
  | .drained => .next s
  | .eos => .next s
  | .terminal F =>
    match F.verdict with
    | .error e => e.outcome
    | .ok v =>
      match v.event s.lc with
      | none => .next s
      | some e => .next (s.emit e)

/-- The worker's exit (R203). -/
def State.workerExit (s : State) : State := { s with lc := { s.lc with workerAlive := false } }

/-- One iteration of the worker's loop (R202): `running` is tested first; no deadline is consulted. -/
def workerIteration (s : State) : StepOutcome :=
  if s.lc.running then
    match drainOnce s.lc s.env with
    | .error e => e.outcome
    | .ok (lc, env, d) => workerDispatch d { s with lc := lc, env := env }
  else .next s.workerExit

/-! ### Turns (log entry 8) -/

/-- The worker's turn; nothing if no worker exists (R8). -/
def workerTurn (s : State) : StepOutcome := if s.lc.workerAlive then workerIteration s else .next s

/-- The foreground's turn inside an operation: READ's next iteration (R182), or the test of STOP's wait (R206). -/
def foregroundTurn (s : State) : StepOutcome :=
  match s.foreground with
  | .idle => .next s
  | .reading => readIteration s
  | .stopping => if s.lc.workerAlive then .next s else .next (s.endOp (.status .ok))

/-- Who moves when the inputs name nobody: READ goes on; else the worker, if there is one; else STOP returns; else nothing
moves. -/
def defaultTurn (s : State) : StepOutcome :=
  match s.foreground with
  | .reading => readIteration s
  | .idle => workerTurn s
  | .stopping => if s.lc.workerAlive then workerIteration s else foregroundTurn s

/-- The next operation of the foreground, if it is its turn: the foreground is idle and the first input is a command; with
the state after the command is taken. -/
def fetchOp (s : State) : Option (List Byte × State) :=
  match s.foreground, s.inputs with
  | .idle, .op c :: rest => some (c, { s with inputs := rest })
  | _, _ => none

/-- A step that issues no operation: the environment moves (R74), or an agent takes its turn. A command that waits for the
foreground stays where it is. -/
def agentTurn (s : State) : StepOutcome :=
  match s.inputs with
  | [] => defaultTurn s
  | .op _ :: _ => defaultTurn s
  | .append bs :: rest => .next { s with env := s.env.receive bs, inputs := rest }
  | .close :: rest => .next { s with env := s.env.close, inputs := rest }
  | .closeAfter n :: rest => .next { s with env := s.env.planClose n, inputs := rest }
  | .foreground :: rest => foregroundTurn { s with inputs := rest }
  | .worker :: rest => workerTurn { s with inputs := rest }

end Sys2Proof.Machine
end

