-- ==== Sys2Proof/Machine/Dispatch.lean ====
section
/-! DEFINITION. One arm per instruction: each calls the instruction's meaning. -/

namespace Sys2Proof.Machine

/-- The meaning of an instruction. -/
def exec (i : Instr) (s : State) : Host.Outcome State Fault Refusal :=
  match i with
  | .rxEndEsc f => Sys2Proof.Machine.execRxEndEsc f s
  | .rxEndFin f => Sys2Proof.Machine.execRxEndFin f s
  | .rxEndSkip f => Sys2Proof.Machine.execRxEndSkip f s
  | .rxEsc f => Sys2Proof.Machine.execRxEsc f s
  | .rxDataEsc f b => Sys2Proof.Machine.execRxDataEsc f b s
  | .rxData f b => Sys2Proof.Machine.execRxData f b s
  | .txEsc7E => Sys2Proof.Machine.execTxEsc7E s
  | .txEsc7D => Sys2Proof.Machine.execTxEsc7D s
  | .txLit x => Sys2Proof.Machine.execTxLit x s
  | .txFlag => Sys2Proof.Machine.execTxFlag s
  | .faAddbyte f b => Sys2Proof.Machine.execFaAddbyte f b s
  | .faReset f => Sys2Proof.Machine.execFaReset f s
  | .crc16 x => Sys2Proof.Machine.execCrc16 x s
  | .encode p => Sys2Proof.Machine.execEncode p s
  | .send p => Sys2Proof.Machine.execSend p s
  | .read t => Sys2Proof.Machine.execRead t s
  | .start a b => Sys2Proof.Machine.execStart a b s
  | .stop => Sys2Proof.Machine.execStop s

end Sys2Proof.Machine
end

