-- ==== Sys2Proof/Machine/Step.lean ====
section
/-! DEFINITION. One step of the machine: an operation of the foreground, a turn of an agent, or a move of the environment
(00_scope.md R8; log entry 8). -/

namespace Sys2Proof.Machine

/-- One step. Where the foreground is idle and the next input is a command, the command is decoded and run; otherwise the
agent whose turn it is moves. -/
def step (s : State) : Host.Outcome State Fault Refusal :=
  match fetchOp s with
  | some (c, t) =>
    match decode t.view c with
    | .ok i => exec i t
    | .error e => .refused (.undecodable e)
  | none => agentTurn s

/-- The state with the command of a table word placed where the next step takes its command: at the head of the inputs,
with the foreground idle (log entry 4). `nbits` only bounds the word. -/
def State.withFetchWord (s : State) (_nbits w : Nat) : State :=
  { s with foreground := .idle, inputs := .op (layTableWord w) :: s.inputs }

end Sys2Proof.Machine
end

