-- ==== Sys2Proof/Safety.lean ====
section
/-! DEFINITION. What counts as a safe run: the invariants the spec states of the Frame (10_state.md R26, R27) and of the
Link Controller (R32, R33, R36), the forms of the buffers and of the bank, and the absence of faults (R62). -/

namespace Sys2Proof.Machine

/-- The invariants of a Frame (R27), with the form of its buffer. R27 (e) follows from `error_finished` and
`code_error`. -/
structure Frame.Inv (F : Frame) : Prop where
  /-- The buffer is in canonical form. -/
  data_wf : F.data.wf
  /-- The buffer holds a byte at exactly the indexes below `len` (R22). -/
  data_dense : ∀ i, (F.data.read i).isSome = true ↔ i < F.len
  /-- R27 (a). -/
  len_le : F.len ≤ Config.maxFrame
  /-- R27 (b). -/
  error_finished : F.error = true → F.finished = true
  /-- R27 (c). -/
  code_error : F.errCode ≠ .ok ↔ F.error = true
  /-- The four values of `err_code` (R26). -/
  code_kind : F.errCode = .ok ∨ F.errCode = .eFraming ∨ F.errCode = .eTooBig ∨ F.errCode = .eCrc
  /-- R27 (d). -/
  success : F.finished = true → F.error = false →
    1 ≤ F.len ∧ F.state = .reading ∧ ∃ p, F.data.readRange 0 F.len = some p ∧ crc16 p = F.crc

/-- The invariants of the Link Controller. -/
structure LinkController.Inv (lc : LinkController) : Prop where
  /-- A present `current_frame` has not finished (R32). -/
  current : ∀ F, lc.currentFrame = some F → F.Inv ∧ F.finished = false
  /-- A present `last_frame` has finished (R33). -/
  last : ∀ F, lc.lastFrame = some F → F.Inv ∧ F.finished = true
  /-- `running = 1` implies `worker_alive = 1` (R36). -/
  running_alive : lc.running = true → lc.workerAlive = true

/-- The invariants of the machine. -/
structure State.Inv (s : State) : Prop where
  /-- The bank of standalone Frames is in canonical form. -/
  bank : bankWf s.frames
  /-- Every standalone Frame meets R27. -/
  frames : ∀ c ∈ s.frames, c.2.Inv
  lc : s.lc.Inv
  /-- `worker_alive = 1 and running = 0` holds only inside STOP (R36). -/
  exiting : s.lc.workerAlive = true → s.lc.running = false → s.foreground = .stopping
  /-- STOP has cleared the flag it waits for (R206). -/
  stopping : s.foreground = .stopping → s.lc.running = false
  /-- The Blocking and the Background mode exclude each other (R237). -/
  reading : s.foreground = .reading → s.lc.running = false ∧ s.lc.workerAlive = false

/-- The buffer of the Frame holds exactly the bytes `p` (R22: `F.data[0 .. F.len)`). -/
def Frame.Holds (F : Frame) (p : List Byte) : Prop := F.len = p.length ∧ F.data.readRange 0 F.len = some p

/-- The receive stream is open, and the environment plans no closure (R74). -/
def Transport.Open (t : Transport) : Prop := t.rxClosed = false ∧ t.closeAfter = none

/-- A READ may be issued: the foreground is idle and there is no reader (R182, R191, R237). -/
def State.MayRead (s : State) : Prop := s.foreground = .idle ∧ s.lc.running = false ∧ s.lc.workerAlive = false

/-- The first deadline test of a READ with this timeout answers false (R37, R186). -/
def State.InTime (s : State) (timeout : Nat) : Prop := timeout ≠ 0 ∧ s.clock.headD false = false

/-- The worker may take an iteration that polls: it exists and the flag is set (R202). -/
def State.MayPoll (s : State) : Prop := s.lc.workerAlive = true ∧ s.lc.running = true

/-- The instruction feeds a byte to the standalone Frame `f`: FA_ADDBYTE (R120), or one of the six receive symbols, its arms
(R94; log entry 6). -/
def FeedsFrame (i : Instr) (f : Nat) : Prop :=
  i = .rxEndEsc f ∨ i = .rxEndFin f ∨ i = .rxEndSkip f ∨ i = .rxEsc f ∨ (∃ b, i = .rxDataEsc f b) ∨
    (∃ b, i = .rxData f b) ∨ ∃ b, i = .faAddbyte f b

/-- The results a READ ends with (R182, R228), S_INTERNAL left out, which is unreachable (R28). -/
def Result.EndsRead (r : Result) : Prop :=
  (∃ p, r = .payload p) ∨ r = .status .eFraming ∨ r = .status .eTooBig ∨ r = .status .eCrc ∨ r = .status .sTimeout ∨
    r = .status .sTransport

/-- A state from which the next step is no fault. -/
def State.Safe (s : State) : Prop := ∀ r, step s ≠ .fault r

/-- The end of a run (R268): the foreground's last operation has returned and no worker is alive. -/
def State.Ended (s : State) : Prop :=
  s.foreground = .idle ∧ s.lc.running = false ∧ s.lc.workerAlive = false ∧ ∀ c, Input.op c ∉ s.inputs

end Sys2Proof.Machine
end

