-- ==== Sys2Proof/Certificates/Slice0/Obligations.lean ====
section
/-! DEFINITION. The statements of this model for the provers. Each docstring names the rule of spec/ it formalises, or says
that it is derived and from what. -/

open Sys2Proof Sys2Proof.Machine

/-! ### Encoding and decoding -/

/-- Derived from R94, R95, R99 and the model's command layout (log entry 3): the decoder reads every well-formed instruction
back from its command, for a receive symbol on every Frame that meets its row's condition. -/
def Obligations.DecodeOfEncodeIsTheInstruction : Prop :=
  ∀ (view : Nat → AsmState × Nat) (i : Instr), i.wf = true → i.rowCondition view → decode view (encode i) = .ok i

/-- Derived from R94, R95, R99 and log entry 3: a command has one meaning; what the decoder reads is well formed, meets its
row's condition, and encodes to the same bytes. -/
def Obligations.EncodeOfDecodeIsTheCommand : Prop :=
  ∀ (view : Nat → AsmState × Nat) (c : List Byte) (i : Instr), decode view c = .ok i →
    encode i = c ∧ i.wf = true ∧ i.rowCondition view

/-- Derived: commands written out byte by byte from R91, R94, R95 and R99 decode to their instructions. -/
def Obligations.SpelledOutCommandsDecode : Prop :=
  decode (fun _ => (.escaping, 1)) [0x7E, 1, 0, 0, 0, 2] = .ok (.rxEndEsc 2) ∧
  decode (fun _ => (.reading, 3)) [0x7E, 1, 0, 0, 0, 2] = .ok (.rxEndFin 2) ∧
  decode (fun _ => (.reading, 2)) [0x7E, 1, 0, 0, 0, 2] = .ok (.rxEndSkip 2) ∧
  decode (fun _ => (.reading, 1024)) [0x7D, 1, 0, 0, 1, 0] = .ok (.rxEsc 256) ∧
  decode (fun _ => (.escaping, 0)) [0x7D, 1, 0, 0, 0, 0] = .ok (.rxDataEsc 0 0x7D) ∧
  decode (fun _ => (.reading, 0)) [0x41, 1, 0, 0, 0, 0] = .ok (.rxData 0 0x41) ∧
  decode freshView [0x7E, 2] = .ok .txEsc7E ∧
  decode freshView [0x7D, 2] = .ok .txEsc7D ∧
  decode freshView [0x41, 2] = .ok (.txLit 0x41) ∧
  decode freshView [0x7E, 3] = .ok .txFlag ∧
  decode freshView [0x00, 0, 0, 0, 0, 7, 0x7E] = .ok (.faAddbyte 7 0x7E) ∧
  decode freshView [0x02, 0, 0x31, 0x32] = .ok (.crc16 [0x31, 0x32]) ∧
  decode freshView [0x05, 0, 0, 0, 0, 10] = .ok (.read 10) ∧
  decode freshView [0x06, 0, 1, 0, 0, 0, 9, 0] = .ok (.start (some 9) none) ∧
  decode freshView [0x07, 0] = .ok .stop

/-- Derived from R100 and log entry 3: an operation code from 0x8 to 0xF is refused, by the decoder and by a step. -/
def Obligations.ReservedOperationCodesAreRefused : Prop :=
  ∀ (op : Byte) (operands : List Byte), 8 ≤ op.toNat → op.toNat ≤ 15 →
    (∀ view, decode view (op :: 0 :: operands) = .error .reservedOp) ∧
    ∀ (s : State) (rest : List Input), s.foreground = .idle → s.inputs = .op (op :: 0 :: operands) :: rest →
      step s = .refused (.undecodable .reservedOp)

/-- Derived from R94: the six rows of the receive symbol table, each selected exactly under its condition; so every combination of byte,
state and length is covered exactly once. -/
def Obligations.ReceiveTableCoversEveryByteOnce : Prop :=
  ∀ (st : AsmState) (len : Nat) (b : Byte),
    (classifyRx st len b = .endEsc ↔ b = 0x7E ∧ st = .escaping) ∧
    (classifyRx st len b = .endFin ↔ b = 0x7E ∧ st = .reading ∧ 3 ≤ len) ∧
    (classifyRx st len b = .endSkip ↔ b = 0x7E ∧ st = .reading ∧ len < 3) ∧
    (classifyRx st len b = .esc ↔ b = 0x7D ∧ st = .reading) ∧
    (classifyRx st len b = .dataEsc ↔ b ≠ 0x7E ∧ st = .escaping) ∧
    (classifyRx st len b = .data ↔ b ≠ 0x7E ∧ b ≠ 0x7D ∧ st = .reading)

/-! ### A step -/

/-- Derived from R8, R99 and log entry 8: where the foreground is idle and the next input is a command that decodes, the step
is the instruction run on the state without that input; a command that does not decode is refused by its reason. -/
def Obligations.StepRunsTheDecodedInstruction : Prop :=
  ∀ (s : State) (c : List Byte) (rest : List Input), s.foreground = .idle → s.inputs = .op c :: rest →
    (∀ i, decode s.view c = .ok i → step s = exec i { s with inputs := rest }) ∧
    (∀ e, decode s.view c = .error e → step s = .refused (.undecodable e))

/-- Derived from R74, for the environment's moves (the plan to close inside an iteration is the model's, log entry 12): bytes are appended
to the tail of `rxq`; the stream may be closed; once it is closed nothing more is appended and it stays closed. -/
def Obligations.EnvironmentMovesTheReceiveStream : Prop :=
  ∀ (s : State) (rest : List Input),
    (∀ bs, s.inputs = .append bs :: rest → s.env.rxClosed = false →
      step s = .next { s with inputs := rest, env := { s.env with rxq := s.env.rxq ++ bs } }) ∧
    (∀ bs, s.inputs = .append bs :: rest → s.env.rxClosed = true → step s = .next { s with inputs := rest }) ∧
    (s.inputs = .close :: rest →
      step s = .next { s with inputs := rest, env := { s.env with rxClosed := true, closeAfter := none } }) ∧
    (∀ n, s.inputs = .closeAfter n :: rest → s.env.rxClosed = false →
      step s = .next { s with inputs := rest, env := { s.env with closeAfter := some n } })

/-! ### The receive symbols -/

/-- R122: END in Escaping state aborts with E_FRAMING at any length. -/
def Obligations.EndInEscapingAbortsWithFraming : Prop :=
  ∀ (f : Nat) (s : State), (s.frameAt f).finished = false → (s.frameAt f).state = .escaping →
    exec (.rxEndEsc f) s =
      .next (s.putFrame f { s.frameAt f with finished := true, error := true, errCode := .eFraming } true)

/-- R123 and R131: END in Reading state with 3 or more bytes buffered records the received checksum and compares it with the
checksum of the payload; on a match the buffer is trimmed to the payload, on a mismatch the Frame is aborted with E_CRC. -/
def Obligations.EndInReadingVerifiesTheChecksum : Prop :=
  ∀ (f : Nat) (s : State) (p : List Byte) (hi lo : Byte), (s.frameAt f).finished = false →
    (s.frameAt f).state = .reading → 1 ≤ p.length → (s.frameAt f).Holds (p ++ [hi, lo]) →
    (crc16 p = hi ++ lo →
      exec (.rxEndFin f) s =
        .next (s.putFrame f
          { s.frameAt f with
              crc := hi ++ lo, data := (s.frameAt f).data.trim p.length, len := p.length, finished := true,
              error := false } true)) ∧
    (crc16 p ≠ hi ++ lo →
      exec (.rxEndFin f) s =
        .next (s.putFrame f
          { s.frameAt f with crc := hi ++ lo, finished := true, error := true, errCode := .eCrc } true))

/-- R124: END in Reading state with fewer than 3 bytes buffered writes nothing at all and returns false. -/
def Obligations.EndWithFewBytesWritesNothing : Prop :=
  ∀ (f : Nat) (s : State), bankWf s.frames → (s.frameAt f).finished = false → (s.frameAt f).state = .reading →
    (s.frameAt f).len < 3 → exec (.rxEndSkip f) s = .next (s.returns (.terminal false))

/-- R125: ESC in Reading state writes the mode only, at any length. -/
def Obligations.EscapeByteSwitchesTheModeOnly : Prop :=
  ∀ (f : Nat) (s : State), (s.frameAt f).finished = false → (s.frameAt f).state = .reading →
    exec (.rxEsc f) s = .next (s.putFrame f { s.frameAt f with state := .escaping } false)

/-- R126 (with R129 and R130): a data byte in Reading state is stored at index `len`, or aborts a full Frame with E_TOO_BIG and is
not stored. -/
def Obligations.DataByteIsAppendedOrTooBig : Prop :=
  ∀ (f : Nat) (b : Byte) (s : State), (s.frameAt f).finished = false → (s.frameAt f).state = .reading →
    b ≠ 0x7E → b ≠ 0x7D →
    ((s.frameAt f).len < 1024 →
      exec (.rxData f b) s =
        .next (s.putFrame f
          { s.frameAt f with
              data := (s.frameAt f).data.write (s.frameAt f).len b, len := (s.frameAt f).len + 1 } false)) ∧
    ((s.frameAt f).len = 1024 →
      exec (.rxData f b) s =
        .next (s.putFrame f { s.frameAt f with finished := true, error := true, errCode := .eTooBig } true))

/-- R127 and R128: any byte but END in Escaping state, ESC included, is unmasked and appended, and the mode returns to
Reading, before the length test. -/
def Obligations.EscapedByteIsUnmaskedAndAppended : Prop :=
  ∀ (f : Nat) (b : Byte) (s : State), (s.frameAt f).finished = false → (s.frameAt f).state = .escaping → b ≠ 0x7E →
    ((s.frameAt f).len < 1024 →
      exec (.rxDataEsc f b) s =
        .next (s.putFrame f
          { s.frameAt f with
              state := .reading, data := (s.frameAt f).data.write (s.frameAt f).len (b ^^^ 0x20),
              len := (s.frameAt f).len + 1 } false)) ∧
    ((s.frameAt f).len = 1024 →
      exec (.rxDataEsc f b) s =
        .next (s.putFrame f
          { s.frameAt f with state := .reading, finished := true, error := true, errCode := .eTooBig } true))

/-! ### FA_ADDBYTE and FA_RESET -/

/-- Derived, as R135 itself is, from R122 to R130 with R131: the transition table of the assembler, its eight rows as
FA_ADDBYTE runs them. That a Frame accepts no byte after a true result is AddByteOnFinishedFrameIsRefused. -/
def Obligations.AddByteFollowsTheTransitionTable : Prop :=
  ∀ (f : Nat) (b : Byte) (s : State), (s.frameAt f).finished = false →
    ((s.frameAt f).state = .reading → b = 0x7E → (s.frameAt f).len < 3 →
      exec (.faAddbyte f b) s = .next (s.putFrame f (s.frameAt f) false)) ∧
    (∀ p hi lo, (s.frameAt f).state = .reading → b = 0x7E → 3 ≤ (s.frameAt f).len →
      (s.frameAt f).Holds (p ++ [hi, lo]) →
      exec (.faAddbyte f b) s =
        .next (s.putFrame f
          (if crc16 p = hi ++ lo then
            { s.frameAt f with
                crc := hi ++ lo, data := (s.frameAt f).data.trim p.length, len := (s.frameAt f).len - 2,
                finished := true, error := false }
          else { s.frameAt f with crc := hi ++ lo, finished := true, error := true, errCode := .eCrc }) true)) ∧
    ((s.frameAt f).state = .reading → b = 0x7D →
      exec (.faAddbyte f b) s = .next (s.putFrame f { s.frameAt f with state := .escaping } false)) ∧
    ((s.frameAt f).state = .reading → b ≠ 0x7E → b ≠ 0x7D → (s.frameAt f).len < 1024 →
      exec (.faAddbyte f b) s =
        .next (s.putFrame f
          { s.frameAt f with
              data := (s.frameAt f).data.write (s.frameAt f).len b, len := (s.frameAt f).len + 1 } false)) ∧
    ((s.frameAt f).state = .reading → b ≠ 0x7E → b ≠ 0x7D → (s.frameAt f).len = 1024 →
      exec (.faAddbyte f b) s =
        .next (s.putFrame f { s.frameAt f with finished := true, error := true, errCode := .eTooBig } true)) ∧
    ((s.frameAt f).state = .escaping → b = 0x7E →
      exec (.faAddbyte f b) s =
        .next (s.putFrame f { s.frameAt f with finished := true, error := true, errCode := .eFraming } true)) ∧
    ((s.frameAt f).state = .escaping → b ≠ 0x7E → (s.frameAt f).len < 1024 →
      exec (.faAddbyte f b) s =
        .next (s.putFrame f
          { s.frameAt f with
              state := .reading, data := (s.frameAt f).data.write (s.frameAt f).len (b ^^^ 0x20),
              len := (s.frameAt f).len + 1 } false)) ∧
    ((s.frameAt f).state = .escaping → b ≠ 0x7E → (s.frameAt f).len = 1024 →
      exec (.faAddbyte f b) s =
        .next (s.putFrame f
          { s.frameAt f with state := .reading, finished := true, error := true, errCode := .eTooBig } true))

/-- Derived from R121 and R120: FA_ADDBYTE on a Frame that has finished is refused, whatever the byte, and so is each of the
six receive symbols, which are the arms of that operation (a symbol as an instruction is the model's, log entry 6). -/
def Obligations.AddByteOnFinishedFrameIsRefused : Prop :=
  ∀ (f : Nat) (s : State), (s.frameAt f).finished = true →
    ∀ i : Instr, FeedsFrame i f → exec i s = .refused .frameFinished

/-- R137 (a) and (b), derived: a byte's result is true exactly when it sets `finished`; `len` never decreases except in a
successful Finish. -/
def Obligations.AddByteTerminatesExactlyWhenItFinishes : Prop :=
  ∀ (F G : Frame) (b : Byte) (t : Bool), F.addByte b = .ok (G, t) →
    (t = true ↔ G.finished = true) ∧
    (G.len < F.len → G.finished = true ∧ G.error = false ∧ b = 0x7E ∧ F.state = .reading ∧ G.len + 2 = F.len)

/-- R136, derived: which error one byte can report, by the order of the tests. -/
def Obligations.OneByteReportsAtMostOneError : Prop :=
  ∀ (F G : Frame) (b : Byte) (t : Bool), F.errCode = .ok → F.addByte b = .ok (G, t) →
    (b = 0x7E → F.state = .escaping → G.errCode = .eFraming) ∧
    (b = 0x7E → F.state = .reading → G.errCode = .ok ∨ G.errCode = .eCrc) ∧
    (b = 0x7D → F.state = .reading → G.errCode = .ok) ∧
    (b ≠ 0x7E → ¬(b = 0x7D ∧ F.state = .reading) → G.errCode = .ok ∨ G.errCode = .eTooBig)

/-- R61: the buffer is written only by appending. A byte fed to a Frame leaves every index below both fill counts as it was;
it stores at most at index `len`, and `len` then grows by 1; only a successful Finish removes bytes, two of them; FA_RESET
leaves none. -/
def Obligations.FrameBufferIsWrittenOnlyByAppending : Prop :=
  (∀ (F G : Frame) (b : Byte) (t : Bool), F.addByte b = .ok (G, t) →
    (∀ i, i < F.len → i < G.len → G.data.read i = F.data.read i) ∧
    (∀ i, F.len < i → F.data.read i = none → G.data.read i = none) ∧
    ((G.len = F.len ∧ G.data = F.data) ∨
      (G.len = F.len + 1 ∧ ∃ v, G.data.read F.len = some v ∧ (v = b ∨ v = b ^^^ 0x20)) ∨
      (G.len + 2 = F.len ∧ G.finished = true ∧ G.error = false ∧ ∀ i, G.len ≤ i → G.data.read i = none))) ∧
  ∀ (f : Nat) (s t : State), exec (.faReset f) s = .next t → (t.frameAt f).len = 0 ∧ ∀ i, (t.frameAt f).data.read i = none

/-- R133: FA_RESET writes every field of the Frame, in any state of it, and gives no result; applying it twice is the same as
once. -/
def Obligations.FaResetGivesAFreshFrame : Prop :=
  ∀ (f : Nat) (s : State), ∃ t, exec (.faReset f) s = .next t ∧
    t.frameAt f =
      { state := .reading, data := [], len := 0, crc := 0x0000, finished := false, error := false, errCode := .ok } ∧
    t = { s with frames := t.frames } ∧ exec (.faReset f) t = .next t

/-- Derived from R120, R133 and R237 (the handles are the model's, log entry 5): an operation or symbol on one standalone
Frame leaves every other Frame, the Link Controller, the transport and the foreground as they were, and adds at most its
result to the run's outputs. -/
def Obligations.FrameOperationsTouchOneFrameOnly : Prop :=
  ∀ (i : Instr) (f : Nat) (s t : State),
    FeedsFrame i f ∨ i = .faReset f → exec i s = .next t →
    (∀ g, g ≠ f → t.frameAt g = s.frameAt g) ∧ t = { s with frames := t.frames, outputs := t.outputs } ∧
      (t.outputs = s.outputs ∨ ∃ b, t.outputs = s.outputs ++ [.result (.terminal b)])

/-! ### The checksum -/

/-- Derived from R152 (with R150: no state is read or written): the result of CRC16 is the value of the bit-by-bit algorithm.
The polynomial 0x1021 and the bit order are general knowledge in the spec (R151) and PRESUMED here (log entry 15). -/
def Obligations.Crc16RunsTheBitwiseAlgorithm : Prop :=
  ∀ (x : List Byte) (s : State),
    exec (.crc16 x) s =
      .next (s.returns (.crc (x.foldl
        (fun (r : Word16) (b : Byte) => (fun v : Word16 => if v.getLsbD 15 then (v <<< 1) ^^^ 0x1021 else v <<< 1)^[8]
          (r ^^^ (b.setWidth 16 <<< 8))) 0xFFFF)))

/-- Derived, as R157 itself is, from R152: (a) the empty sequence; (b) the check string, under the seed and under seed 0; (c) the residue of a sequence
followed by two bytes is 0 exactly when they are its checksum; (d) sequences of equal length that differ in exactly one bit
have different checksums, so a flipped bit in payload or checksum never matches. The values 0x29B1 and 0x31C3 rest on the
polynomial and bit order that log entry 15 marks PRESUMED (R151). -/
def Obligations.Crc16Properties : Prop :=
  crc16 [] = 0xFFFF ∧
  crc16 [0x31, 0x32, 0x33, 0x34, 0x35, 0x36, 0x37, 0x38, 0x39] = 0x29B1 ∧
  [0x31, 0x32, 0x33, 0x34, 0x35, 0x36, 0x37, 0x38, 0x39].foldl crcUpdate 0x0000 = 0x31C3 ∧
  (∀ (s : List Byte) (hi lo : Byte), crc16 (s ++ [hi, lo]) = 0x0000 ↔ [hi, lo] = crcBytes (crc16 s)) ∧
  (∀ (u v : List Byte) (b : Byte) (k : Nat), k < 8 →
    crc16 (u ++ [b] ++ v) ≠ crc16 (u ++ [b ^^^ ((1 : Byte) <<< k)] ++ v)) ∧
  ∀ (p u v q : List Byte) (b hi lo : Byte) (k : Nat), k < 8 → p ++ crcBytes (crc16 p) = u ++ [b] ++ v →
    u ++ [b ^^^ ((1 : Byte) <<< k)] ++ v = q ++ [hi, lo] → crc16 q ≠ hi ++ lo

/-! ### The wire encoder -/

/-- Derived from R95: what the transmit symbols put on the wire (that it is a result is the model's, log entry 7). -/
def Obligations.TransmitSymbolsMapBytes : Prop :=
  ∀ s : State,
    exec .txEsc7E s = .next (s.returns (.bytes [0x7D, 0x5E])) ∧
    exec .txEsc7D s = .next (s.returns (.bytes [0x7D, 0x5D])) ∧
    (∀ x : Byte, x ≠ 0x7E → x ≠ 0x7D → exec (.txLit x) s = .next (s.returns (.bytes [x]))) ∧
    exec .txFlag s = .next (s.returns (.bytes [0x7E]))

/-- R160 with its three steps R161, R162 and R163, for a payload of any length (R166): the result of ENCODE. -/
def Obligations.EncodeBuildsTheWireFrame : Prop :=
  ∀ (p : List Byte) (s : State),
    exec (.encode p) s =
      .next (s.returns (.bytes
        ([0x7E] ++
          (p ++ [(crc16 p).extractLsb' 8 8, (crc16 p).extractLsb' 0 8]).flatMap
            (fun x => if x = 0x7E then [0x7D, 0x5E] else if x = 0x7D then [0x7D, 0x5D] else [x]) ++
          [0x7E])))

/-- R164: 0x7E occurs only at the first and the last index, and every 0x7D is followed by 0x5E or 0x5D. -/
def Obligations.EncodedFrameHoldsNoRawReservedByte : Prop :=
  ∀ p : List Byte, ∃ body : List Byte, wireEncode p = [0x7E] ++ body ++ [0x7E] ∧ (0x7E : Byte) ∉ body ∧
    ∀ i : Nat, body[i]? = some (0x7D : Byte) → body[i + 1]? = some (0x5E : Byte) ∨ body[i + 1]? = some (0x5D : Byte)

/-- Derived from R165 (itself derived, from R161 to R163), with the bounds of R96: the length of the encoded frame. -/
def Obligations.EncodedLengthCountsTheEscapes : Prop :=
  ∀ p : List Byte,
    (wireEncode p).length = p.length + 4 + (withCrc p).countP (fun x => x == 0x7E || x == 0x7D) ∧
    p.length + 4 ≤ (wireEncode p).length ∧ (wireEncode p).length ≤ 2 * p.length + 6

/-- Derived from R167: ENCODE is injective (that it is deterministic holds of every function). -/
def Obligations.EncodeIsInjective : Prop :=
  ∀ p q : List Byte, wireEncode p = wireEncode q → p = q

/-- R169: the round trip, with the true result on the last byte. -/
def Obligations.EncodedPayloadDecodesToItself : Prop :=
  ∀ p : List Byte, 1 ≤ p.length → p.length ≤ 1022 →
    wireDecode (wireEncode p) = .ok (.ok p) ∧
    (∃ F, Frame.fresh.feed (wireEncode p) = .ok (F, true, [])) ∧
    ∃ F, Frame.fresh.feed (wireEncode p).dropLast = .ok (F, false, [])

/-- R171, derived: a payload is rejected as oversize exactly when it has 1023 bytes or more, however many were stuffed. -/
def Obligations.OversizePayloadIsRejectedExactly : Prop :=
  ∀ p : List Byte, wireDecode (wireEncode p) = .ok (.err .eTooBig) ↔ 1023 ≤ p.length

/-- R170, derived, for the flips the rule names: a flip of one bit between the delimiters that neither creates nor destroys a
byte 0x7E or 0x7D of the wire image gives a checksum error. -/
def Obligations.StructureKeepingFlipGivesChecksumError : Prop :=
  ∀ (p u v : List Byte) (b : Byte) (k : Nat), 1 ≤ p.length → p.length ≤ 1022 → k < 8 →
    wireEncode p = [0x7E] ++ (u ++ [b] ++ v) ++ [0x7E] →
    b ≠ 0x7E → b ≠ 0x7D → b ^^^ ((1 : Byte) <<< k) ≠ 0x7E → b ^^^ ((1 : Byte) <<< k) ≠ 0x7D →
    wireDecode (([0x7E] : List Byte) ++ (u ++ [b ^^^ ((1 : Byte) <<< k)] ++ v) ++ [0x7E]) = .ok (.err .eCrc)

/-- Derived from R160, R168 and U16: the property R170 leaves unproved for longer payloads does not hold of them. One flip
that creates a delimiter behind a payload that happens to carry its own checksum gives a success with another payload. -/
def Obligations.FlipCanGiveASilentSuccess : Prop :=
  ∃ (p q u v : List Byte) (b : Byte) (k : Nat), 1 ≤ p.length ∧ p.length ≤ 1022 ∧ k < 8 ∧
    wireEncode p = [0x7E] ++ (u ++ [b] ++ v) ++ [0x7E] ∧
    wireDecode (([0x7E] : List Byte) ++ (u ++ [b ^^^ ((1 : Byte) <<< k)] ++ v) ++ [0x7E]) = .ok (.ok q) ∧ q ≠ p

/-! ### SEND -/

/-- Derived from R176 and the transport of R74 (log entry 11): SEND writes the whole encoded frame to `txlog` and returns S_OK with its length; nothing else changes. It holds in
every mode in which the foreground can issue it (R177). -/
def Obligations.SendAppendsOneWholeFrame : Prop :=
  ∀ (p : List Byte) (s : State), s.foreground = .idle →
    exec (.send p) s =
      .next { s with
        env := { s.env with txlog := s.env.txlog ++ wireEncode p },
        outputs := s.outputs ++ [.result (.sent (wireEncode p).length)] }

/-! ### The poll iteration -/

/-- Derived from R178, R180 and R231: a poll iteration consumes a part of `rxq` from its head and feeds exactly that part to
the current Frame. It ends terminal on the byte that terminates the Frame, which becomes `last_frame`, with the bytes after it
left; it has no data exactly on an empty stream; drained, it has read everything. From R74 and R187: on a closed stream with
bytes pending it ends with EOS at once and reads none of them; where the environment's plan (log entry 12) closes the stream
after `k` more bytes, it reads at most `k`, and ends with EOS after exactly `k` if more are pending and none of these
terminated a Frame; and it ends with EOS in no other way than on a closed stream. The plan is otherwise kept, counted down. -/
def Obligations.PollFeedsExactlyTheBytesItConsumes : Prop :=
  (∀ (lc : LinkController) (t : Transport), t.rxClosed = true → t.rxq ≠ [] →
    ∃ t', drainOnce lc t = .ok (lc, t', .eos) ∧ t'.rxq = t.rxq ∧ t'.txlog = t.txlog ∧ t'.rxClosed = true) ∧
  ∀ (lc lc' : LinkController) (t t' : Transport) (d : Drained), drainOnce lc t = .ok (lc', t', d) →
    ∃ used, t.rxq = used ++ t'.rxq ∧ t'.txlog = t.txlog ∧
      (d = .noData ↔ t.rxq = []) ∧
      (d = .drained → t'.rxq = []) ∧
      (∀ F, d = .terminal F → (lc.currentFrame.getD Frame.fresh).feed used = .ok (F, true, []) ∧
        lc' = { lc with lastFrame := some F, currentFrame := none }) ∧
      ((∀ F, d ≠ .terminal F) → used = [] → lc' = lc) ∧
      ((∀ F, d ≠ .terminal F) → used ≠ [] → ∃ F, (lc.currentFrame.getD Frame.fresh).feed used = .ok (F, false, []) ∧
        lc' = { lc with currentFrame := some F }) ∧
      (t.rxClosed = true → t.rxq ≠ [] → d = .eos ∧ used = []) ∧
      (d = .eos → t'.rxClosed = true ∧ t'.rxq ≠ []) ∧
      (t.closeAfter = none → t' = { t with rxq := t'.rxq }) ∧
      ∀ k, t.rxClosed = false → t.closeAfter = some k →
        used.length ≤ k ∧ (k < t.rxq.length → (∀ F, d ≠ .terminal F) → d = .eos ∧ used.length = k) ∧
        (d ≠ .eos → t'.rxClosed = false ∧ t'.closeAfter = some (k - used.length))

/-- R188, derived: a frame split at any point between two poll iterations is delivered whole. -/
def Obligations.SplitFrameIsDeliveredWhole : Prop :=
  ∀ (p a b : List Byte) (lc : LinkController) (t u : Transport), 1 ≤ p.length → p.length ≤ 1022 →
    wireEncode p = a ++ b → a ≠ [] → b ≠ [] → lc.currentFrame = none → t.Open → t.rxq = a → u.Open → u.rxq = b →
    ∃ lc', drainOnce lc t = .ok (lc', { t with rxq := [] }, .drained) ∧
      ∃ F, F.finished = true ∧ F.error = false ∧ F.Holds p ∧
        drainOnce lc' u =
          .ok ({ lc' with lastFrame := some F, currentFrame := none }, { u with rxq := [] }, .terminal F)

/-! ### READ -/

/-- Derived from R186 and R224: a READ whose deadline has passed at its first test ends with S_TIMEOUT and changes neither
the frames nor the receive stream, whatever waits in it; with a timeout of 0 no answer of the clock is used. -/
def Obligations.ExpiredReadTimesOutAndChangesNothing : Prop :=
  ∀ s : State, s.MayRead →
    exec (.read 0) s =
      .next { s with lc := { s.lc with deadline := 0 }, outputs := s.outputs ++ [.result (.status .sTimeout)] } ∧
    ∀ timeout, timeout ≠ 0 → s.clock.headD false = true →
      exec (.read timeout) s =
        .next { s with
          lc := { s.lc with deadline := timeout }, clock := s.clock.tail,
          outputs := s.outputs ++ [.result (.status .sTimeout)] }

/-- Derived from R182 to R187: what READ's first iteration does on each result of its poll iteration. -/
def Obligations.ReadActsOnThePollResult : Prop :=
  ∀ (s : State) (timeout : Nat) (lc : LinkController) (env : Transport) (d : Drained), s.MayRead → s.InTime timeout →
    drainOnce { s.lc with deadline := timeout } s.env = .ok (lc, env, d) →
    (d = .noData ∨ d = .drained →
      exec (.read timeout) s =
        .next { s with lc := lc, env := env, clock := s.clock.tail, foreground := .reading }) ∧
    (d = .eos →
      exec (.read timeout) s =
        .next { s with
          lc := lc, env := env, clock := s.clock.tail, outputs := s.outputs ++ [.result (.status .sTransport)] }) ∧
    (∀ F p, d = .terminal F → F.finished = true → F.error = false → F.Holds p →
      exec (.read timeout) s =
        .next { s with lc := lc, env := env, clock := s.clock.tail, outputs := s.outputs ++ [.result (.payload p)] }) ∧
    (∀ F, d = .terminal F → F.finished = true → F.error = true →
      exec (.read timeout) s =
        .next { s with lc := lc, env := env, clock := s.clock.tail, outputs := s.outputs ++ [.result (.status F.errCode)] })

/-- Derived from R182 and R78: inside READ, the foreground's own turn runs one more iteration of READ's loop: the deadline
test, then a poll iteration and its dispatch. That one iteration is one step is log entry 9's. That a step without inputs, or
with a command waiting, is such a turn is the model's default turn, a DESIGN CHOICE (log entry 8). -/
def Obligations.StepInsideReadRunsOneIteration : Prop :=
  ∀ s : State, s.foreground = .reading →
    (s.inputs = [] → step s = readIteration s) ∧
    (∀ c rest, s.inputs = .op c :: rest → step s = readIteration s) ∧
    (∀ rest, s.inputs = .foreground :: rest → step s = readIteration { s with inputs := rest }) ∧
    (s.expired.1 = true → readIteration s = .next (s.expired.2.endOp (.status .sTimeout))) ∧
    (s.expired.1 = false → ∀ lc env d, drainOnce s.lc s.env = .ok (lc, env, d) →
      readIteration s = readDispatch d { s.expired.2 with lc := lc, env := env })

/-- Derived from R182, R190 and R228: from a state that meets the invariant, a READ that may be issued completes: it either
stays in its loop with no result, or ends with one result whose code is one of READ's. -/
def Obligations.ReadCompletesFromTheInvariant : Prop :=
  ∀ (s : State) (timeout : Nat), s.Inv → s.MayRead →
    ∃ t, exec (.read timeout) s = .next t ∧
      ((t.foreground = .reading ∧ t.outputs = s.outputs) ∨
        (t.foreground = .idle ∧ ∃ r, t.outputs = s.outputs ++ [.result r] ∧ r.EndsRead))

/-- R182, R183, R180 and R169 together, derived: a READ in time, with no frame in progress and an open stream that begins
with the encoding of a payload of 1 to 1022 bytes, returns S_OK with that payload, and the bytes after the frame stay. -/
def Obligations.ReadDeliversTheWaitingFrame : Prop :=
  ∀ (s : State) (timeout : Nat) (p rest : List Byte), s.MayRead → s.InTime timeout → s.lc.currentFrame = none →
    s.env.Open → s.env.rxq = wireEncode p ++ rest → 1 ≤ p.length → p.length ≤ 1022 →
    ∃ F, F.finished = true ∧ F.error = false ∧ F.Holds p ∧
      exec (.read timeout) s =
        .next { s with
          lc := { s.lc with currentFrame := none, lastFrame := some F, deadline := timeout },
          env := { s.env with rxq := rest }, clock := s.clock.tail, outputs := s.outputs ++ [.result (.payload p)] }

/-- R192, derived: two encoded frames waiting in one burst are delivered by two READs, one each, in the order of the
stream, on every clock whose first two answers are false (the answers of `Expired()` as a list are log entry 10's, a DESIGN
CHOICE). -/
def Obligations.TwoReadsDeliverTwoFramesInOrder : Prop :=
  ∀ (s : State) (m n : Nat) (p q : List Byte), s.MayRead → s.InTime m → n ≠ 0 →
    s.clock.tail.headD false = false → s.lc.currentFrame = none → s.env.Open → s.env.rxq = wireEncode p ++ wireEncode q → 1 ≤ p.length → p.length ≤ 1022 → 1 ≤ q.length →
    q.length ≤ 1022 →
    ∃ t u, exec (.read m) s = .next t ∧ t.outputs = s.outputs ++ [.result (.payload p)] ∧ t.env.rxq = wireEncode q ∧
      exec (.read n) t = .next u ∧ u.outputs = s.outputs ++ [.result (.payload p), .result (.payload q)] ∧ u.env.rxq = []

/-- R191: a READ issued while `running = 1` is refused. -/
def Obligations.ReadWhileTheReaderRunsIsRefused : Prop :=
  ∀ (s : State) (timeout : Nat), s.foreground = .idle → s.lc.running = true →
    exec (.read timeout) s = .refused .readWhileReaderRuns

/-- R40, derived, for READ: it leaves the standalone Frames, `txlog`, the handlers, the flags, the transport's identity, the
inputs as they were, invokes no handler, and adds at most one result. -/
def Obligations.ReadTouchesOnlyItsOwnState : Prop :=
  ∀ (s t : State) (timeout : Nat), exec (.read timeout) s = .next t →
    t.frames = s.frames ∧ t.env.txlog = s.env.txlog ∧ t.inputs = s.inputs ∧
    (t.outputs = s.outputs ∨ ∃ r, t.outputs = s.outputs ++ [.result r]) ∧
    t.lc = { s.lc with
      currentFrame := t.lc.currentFrame, lastFrame := t.lc.lastFrame, deadline := timeout }

/-- R190 and R237, derived: inside READ or STOP the foreground issues none of the four host operations. -/
def Obligations.HostOperationsAreRefusedWhileBusy : Prop :=
  ∀ (s : State) (p : List Byte) (n : Nat) (a b : Option Nat), s.foreground ≠ .idle →
    exec (.send p) s = .refused .foregroundBusy ∧ exec (.read n) s = .refused .foregroundBusy ∧
    exec (.start a b) s = .refused .foregroundBusy ∧ exec .stop s = .refused .foregroundBusy

/-! ### START, the worker, STOP -/

/-- R200 and R201: START begins a reader session, or fails with S_READER_RUNNING and changes no state. -/
def Obligations.StartBeginsOneSession : Prop :=
  ∀ (a b : Option Nat) (s : State), s.foreground = .idle →
    (s.lc.running = false →
      exec (.start a b) s =
        .next { s with
          lc := { s.lc with frameCallback := a, errorCallback := b, running := true, workerAlive := true },
          outputs := s.outputs ++ [.result (.status .ok)] }) ∧
    (s.lc.running = true →
      exec (.start a b) s = .next { s with outputs := s.outputs ++ [.result (.status .sReaderRunning)] })

/-- R206 and R208, derived: STOP clears the flag; with no worker it returns S_OK at once, else it waits. -/
def Obligations.StopClearsTheFlag : Prop :=
  ∀ s : State, s.foreground = .idle →
    (s.lc.workerAlive = false →
      exec .stop s =
        .next { s with lc := { s.lc with running := false }, outputs := s.outputs ++ [.result (.status .ok)] }) ∧
    (s.lc.workerAlive = true →
      exec .stop s = .next { s with lc := { s.lc with running := false }, foreground := .stopping })

/-- R206 and R268, derived: the whole STOP with a worker alive and no other input. The worker finds the flag cleared and exits
without another handler invocation; then STOP returns S_OK, and the run has ended. The handlers are not cleared, the frames and
the stream stay. In every state inside STOP the foreground's turn waits while the worker is alive, and returns S_OK once it is
not. Three choices of the model carry this: an iteration of the worker is one step, so none is under way when STOP is issued,
where R206 allows the one under way and its one invocation to finish first (log entry 9); handlers return at once, which is
UNSAFE for a claim that STOP returns (log entry 19); and with no input the default turn lets the worker move (log entry 8). -/
def Obligations.StopReturnsOnceTheWorkerHasExited : Prop :=
  (∀ (s : State) (rest : List Input), s.foreground = .stopping → s.inputs = .foreground :: rest →
    (s.lc.workerAlive = true → step s = .next { s with inputs := rest }) ∧
    (s.lc.workerAlive = false →
      step s = .next { s with
        inputs := rest, foreground := .idle, outputs := s.outputs ++ [.result (.status .ok)] })) ∧
  ∀ s : State, s.foreground = .idle → s.lc.workerAlive = true → s.inputs = [] →
    ∃ t u v, exec .stop s = .next t ∧ step t = .next u ∧ u.lc.workerAlive = false ∧ step u = .next v ∧
      v = { s with
        lc := { s.lc with running := false, workerAlive := false },
        outputs := s.outputs ++ [.result (.status .ok)] } ∧ v.Ended

/-- R203: the worker's turn with the flag cleared clears `worker_alive` and changes nothing else; and the worker ceases to
exist in no other way: a step that ends it found the flag cleared, and left both Frames as they were. -/
def Obligations.WorkerExitsWhenTheFlagIsCleared : Prop :=
  (∀ (s : State) (rest : List Input), s.inputs = .worker :: rest → s.lc.workerAlive = true → s.lc.running = false →
    step s = .next { s with inputs := rest, lc := { s.lc with workerAlive := false } }) ∧
  ∀ s t : State, step s = .next t → s.lc.workerAlive = true → t.lc.workerAlive = false →
    s.lc.running = false ∧ t.lc = { s.lc with workerAlive := false }

/-- R204, R205, R209 and R212, derived: what the worker does on each result of its poll iteration. -/
def Obligations.WorkerActsOnThePollResult : Prop :=
  ∀ (s : State) (rest : List Input) (lc : LinkController) (env : Transport) (d : Drained),
    s.inputs = .worker :: rest → s.MayPoll → drainOnce s.lc s.env = .ok (lc, env, d) →
    ((∀ F, d ≠ .terminal F) → step s = .next { s with inputs := rest, lc := lc, env := env }) ∧
    (∀ F p, d = .terminal F → F.finished = true → F.error = false → F.Holds p →
      (s.lc.frameCallback = none → step s = .next { s with inputs := rest, lc := lc, env := env }) ∧
      ∀ h, s.lc.frameCallback = some h →
        step s = .next { s with inputs := rest, lc := lc, env := env, outputs := s.outputs ++ [.event (.frame h p)] }) ∧
    (∀ F, d = .terminal F → F.finished = true → F.error = true →
      (s.lc.errorCallback = none → step s = .next { s with inputs := rest, lc := lc, env := env }) ∧
      ∀ h, s.lc.errorCallback = some h →
        step s =
          .next { s with inputs := rest, lc := lc, env := env, outputs := s.outputs ++ [.event (.error h F.errCode)] })

/-- R202, R204 and R169 together, derived: the worker delivers the encoded frame that waits to the frame handler. -/
def Obligations.WorkerDeliversTheWaitingFrame : Prop :=
  ∀ (s : State) (inputs : List Input) (h : Nat) (p rest : List Byte), s.inputs = .worker :: inputs → s.MayPoll →
    s.lc.frameCallback = some h → s.lc.currentFrame = none → s.env.Open → s.env.rxq = wireEncode p ++ rest →
    1 ≤ p.length → p.length ≤ 1022 →
    ∃ F, F.finished = true ∧ F.error = false ∧ F.Holds p ∧
      step s =
        .next { s with
          inputs := inputs, lc := { s.lc with currentFrame := none, lastFrame := some F },
          env := { s.env with rxq := rest }, outputs := s.outputs ++ [.event (.frame h p)] }

/-- R236 and R207, derived: no instruction of the foreground invokes a handler, and while no worker exists no step does. -/
def Obligations.HandlersRunOnlyInTheWorker : Prop :=
  (∀ (i : Instr) (s t : State), exec i s = .next t → t.events = s.events) ∧
    ∀ s t : State, s.lc.workerAlive = false → step s = .next t → t.events = s.events

/-! ### The whole machine -/

/-- Derived from R42 and R175: the Link Controller after construction, and the Idle mode (R252). R42 gives the deadline no
meaning at reset: that it is 0, and the transport's values in the reset state, are DESIGN CHOICES of log entry 13. -/
def Obligations.ConstructionGivesTheResetState : Prop :=
  ∀ (t : Nat) (env : Transport),
    (State.construct t env).lc =
      { transport := t, currentFrame := none, lastFrame := none, frameCallback := none, errorCallback := none,
        running := false, workerAlive := false, deadline := 0 } ∧
    (State.construct t env).mode = .idle ∧
    (State.construct t env).env = (if Config.flushOnInit = true then { env with rxq := [] } else env) ∧
    State.construct 0 State.reset.env = State.reset

/-- Derived from R220: the numbers of the result codes and the three messages. -/
def Obligations.ResultCodesAndMessages : Prop :=
  Status.ok.code = 0 ∧ Status.eFraming.code = 1 ∧ Status.eTooBig.code = 2 ∧ Status.eCrc.code = 3 ∧
  Status.sTimeout.code = 4 ∧ Status.sReaderRunning.code = 5 ∧ Status.sInternal.code = 6 ∧ Status.sTransport.code = 7 ∧
  (∀ c : Status, c.code.toNat < 8) ∧
  Status.eFraming.message = some "invalid framing (got end in escape mode)" ∧
  Status.eTooBig.message = some "frame too big" ∧ Status.eCrc.message = some "Invalid Frame (CRC FAIL)"

/-- R228, derived: the codes each operation can return, one result at most; by the instruction itself, and by any step: the
operation issued, the READ in its loop (R182) or the STOP that waits (R206) gives the result, with one of its own codes. The
error events of the worker carry one of four codes. -/
def Obligations.EachOperationReturnsOnlyItsCodes : Prop :=
  (∀ (i : Instr) (s t : State), exec i s = .next t →
    t.outputs = s.outputs ∨ ∃ r, t.outputs = s.outputs ++ [.result r] ∧ r.code ∈ returnedCodes i) ∧
  ∀ s t : State, step s = .next t →
    t.outputs = s.outputs ∨
    (∃ r, t.outputs = s.outputs ++ [.result r] ∧
      ((∃ c rest i, s.foreground = .idle ∧ s.inputs = .op c :: rest ∧ decode s.view c = .ok i ∧
          r.code ∈ returnedCodes i) ∨
        (s.foreground = .reading ∧ ∃ n, r.code ∈ returnedCodes (.read n)) ∨
        (s.foreground = .stopping ∧ r.code ∈ returnedCodes .stop))) ∨
    ∃ e, t.outputs = s.outputs ++ [.event e] ∧ s.lc.workerAlive = true ∧
      ∀ h c, e = .error h c → c = .eFraming ∨ c = .eTooBig ∨ c = .eCrc ∨ c = .sInternal

/-- R226 and R28, derived: the internal-consistency error is never reported, by READ or to the error handler. -/
def Obligations.InternalErrorIsNeverReported : Prop :=
  ∀ s t : State, step s = .next t →
    (Output.result (.status .sInternal) ∈ t.outputs → Output.result (.status .sInternal) ∈ s.outputs) ∧
    ∀ h, Output.event (.error h .sInternal) ∈ t.outputs → Output.event (.error h .sInternal) ∈ s.outputs

/-- R31, R71 (c), R74 and R253, derived: a step keeps the transport's identity, only adds to `txlog` and to the end of the
sequence of results and handler calls (R268), at most one entry, and never reopens the receive stream. -/
def Obligations.StepOnlyAddsToTheLogs : Prop :=
  ∀ s t : State, step s = .next t →
    t.lc.transport = s.lc.transport ∧ (∃ w, t.env.txlog = s.env.txlog ++ w) ∧
    (t.outputs = s.outputs ∨ ∃ o, t.outputs = s.outputs ++ [o]) ∧
    (s.env.rxClosed = true → t.env.rxClosed = true)

/-- R237, derived: from a state that meets the invariant, the mode changes only as the rule says: Idle to Blocking by READ,
Idle to Background by a successful START; from Blocking back to Idle when READ ends, with its one result (R190); from
Background back to Idle inside STOP, by the worker's exit. Between that exit and STOP's return the model's mode is Idle, where
R237 can also be read to say Background until the return (log entry 28, a DESIGN CHOICE); STOP returns S_OK from there. -/
def Obligations.ModesChangeOnlyByReadStartAndReturn : Prop :=
  ∀ s t : State, s.Inv → step s = .next t →
    (s.mode = .idle → t.mode = .blocking →
      ∃ c rest n, s.inputs = .op c :: rest ∧ decode s.view c = .ok (.read n)) ∧
    (s.mode = .idle → t.mode = .background →
      ∃ c rest a b, s.inputs = .op c :: rest ∧ decode s.view c = .ok (.start a b) ∧
        t.outputs = s.outputs ++ [.result (.status .ok)]) ∧
    (s.mode = .blocking → t.mode ≠ .background) ∧ (s.mode = .background → t.mode ≠ .blocking) ∧
    (s.mode = .blocking → t.mode = .idle →
      s.foreground = .reading ∧ t.foreground = .idle ∧ ∃ r, t.outputs = s.outputs ++ [.result r] ∧ r.EndsRead) ∧
    (s.mode = .background → t.mode = .idle →
      s.lc.running = false ∧ s.foreground = .stopping ∧ t.foreground = .stopping ∧ t.outputs = s.outputs) ∧
    (s.foreground = .stopping → t.foreground ≠ .stopping →
      s.mode = .idle ∧ t.mode = .idle ∧ t.foreground = .idle ∧ t.outputs = s.outputs ++ [.result (.status .ok)])

/-- Derived from R42: the reset state meets the invariant. -/
def Obligations.ResetMeetsTheInvariant : Prop := State.reset.Inv

/-- R27, R32, R33 and R36, derived (the bank's and the buffers' form is the model's): every step from a state that meets the
invariant gives a state that meets it. -/
def Obligations.StepKeepsTheInvariant : Prop :=
  ∀ s t : State, s.Inv → step s = .next t → t.Inv

/-- R62, derived: no step from a state that meets the invariant faults. -/
def Obligations.NoStepFaultsFromTheInvariant : Prop :=
  ∀ s : State, s.Inv → s.Safe

/-- Derived from R121, R191 and R100: from a state that meets the invariant, a step is refused only for a byte fed by the
foreground to a standalone Frame that has finished, a READ in Background mode, or a command that is no instruction. Which
commands are instructions is the layout of log entry 3, a DESIGN CHOICE: of these refusals the spec's own are the reserved
operation codes. -/
def Obligations.StepRefusesOnlyWhatTheSpecRefuses : Prop :=
  ∀ (s : State) (r : Refusal), s.Inv → step s = .refused r →
    ∃ c rest, s.foreground = .idle ∧ s.inputs = .op c :: rest ∧
      ((∃ e, decode s.view c = .error e ∧ r = .undecodable e) ∨
        (∃ i, decode s.view c = .ok i ∧
          ((r = .frameFinished ∧ ∃ f, FeedsFrame i f ∧ (s.frameAt f).finished = true) ∨
            (r = .readWhileReaderRuns ∧ s.lc.running = true ∧ ∃ n, i = .read n))))
end

