-- ==== Sys2Proof/Laws/Codec.lean ====
section
/-! SUPPORT. The operand fields of a command read back what was written (log entry 3). -/

namespace Sys2Proof

/-- A four-byte number read back. -/
theorem ofBe32_be32 {n : Nat} (h : fits32 n = true) :
    ofBe32 (BitVec.ofNat 8 (n / 2 ^ 24)) (BitVec.ofNat 8 (n / 2 ^ 16)) (BitVec.ofNat 8 (n / 2 ^ 8)) (BitVec.ofNat 8 n) = n := by
  have h' : n < 2 ^ 32 := by simpa [fits32] using h
  simp only [ofBe32, BitVec.toNat_ofNat]
  omega

/-- Four bytes written back. -/
theorem be32_ofBe32 (b3 b2 b1 b0 : Byte) : be32 (ofBe32 b3 b2 b1 b0) = [b3, b2, b1, b0] := by
  have h3 := b3.isLt
  have h2 := b2.isLt
  have h1 := b1.isLt
  have h0 := b0.isLt
  have e3 : BitVec.ofNat 8 (ofBe32 b3 b2 b1 b0 / 2 ^ 24) = b3 := by
    apply BitVec.eq_of_toNat_eq; simp only [ofBe32, BitVec.toNat_ofNat]; omega
  have e2 : BitVec.ofNat 8 (ofBe32 b3 b2 b1 b0 / 2 ^ 16) = b2 := by
    apply BitVec.eq_of_toNat_eq; simp only [ofBe32, BitVec.toNat_ofNat]; omega
  have e1 : BitVec.ofNat 8 (ofBe32 b3 b2 b1 b0 / 2 ^ 8) = b1 := by
    apply BitVec.eq_of_toNat_eq; simp only [ofBe32, BitVec.toNat_ofNat]; omega
  have e0 : BitVec.ofNat 8 (ofBe32 b3 b2 b1 b0) = b0 := by
    apply BitVec.eq_of_toNat_eq; simp only [ofBe32, BitVec.toNat_ofNat]; omega
  simp only [be32, e3, e2, e1, e0]

/-- A number read from four bytes fits. -/
theorem fits32_ofBe32 (b3 b2 b1 b0 : Byte) : fits32 (ofBe32 b3 b2 b1 b0) = true := by
  have h3 := b3.isLt
  have h2 := b2.isLt
  have h1 := b1.isLt
  have h0 := b0.isLt
  apply decide_eq_true
  unfold ofBe32
  omega

/-- A handler operand read back, with the bytes after it left. -/
theorem decodeHandler_encodeHandler {h : Option Nat} (hf : handlerFits h = true) (rest : List Byte) :
    decodeHandler (encodeHandler h ++ rest) = .ok (h, rest) := by
  cases h with
  | none => simp [encodeHandler, decodeHandler]
  | some n =>
    have hn : fits32 n = true := hf
    have hd : decodeHandler (encodeHandler (some n) ++ rest) =
        .ok (some (ofBe32 (BitVec.ofNat 8 (n / 2 ^ 24)) (BitVec.ofNat 8 (n / 2 ^ 16)) (BitVec.ofNat 8 (n / 2 ^ 8))
          (BitVec.ofNat 8 n)), rest) := rfl
    rw [hd, ofBe32_be32 hn]

/-! ### The transmit symbol table (R95) -/

theorem classifyTx_end : classifyTx Config.endByte = .esc7E := rfl

theorem classifyTx_esc : classifyTx Config.escByte = .esc7D := rfl

theorem classifyTx_lit {x : Byte} (h : x ≠ Config.endByte) (h' : x ≠ Config.escByte) : classifyTx x = .lit := by
  rw [classifyTx, if_neg h, if_neg h']

end Sys2Proof
end

