-- ==== Sys2Proof/Laws/Crc.lean ====
section
/-! SUPPORT. The checksum function as a fold (R152, R156). -/

namespace Sys2Proof.Machine

@[simp] theorem crc16_nil : crc16 [] = 0xFFFF := rfl

/-- The streaming form: one update per byte (R156). -/
theorem crc16_concat (s : List Byte) (b : Byte) : crc16 (s ++ [b]) = crcUpdate (crc16 s) b := by
  simp [crc16]

theorem crc16_append (s t : List Byte) : crc16 (s ++ t) = t.foldl crcUpdate (crc16 s) := by
  simp [crc16]

/-- The bits of two bytes read as a checksum (R63). -/
theorem getLsbD_crcOfBytes (hi lo : Byte) (i : Nat) :
    (crcOfBytes hi lo).getLsbD i = if i < 8 then lo.getLsbD i else hi.getLsbD (i - 8) := by
  change (hi ++ lo : BitVec (8 + 8)).getLsbD i = _
  rw [BitVec.getLsbD_append]

/-- The serialised checksum read back (R63, R153). -/
theorem crcOfBytes_crcBytes (c : Word16) : crcOfBytes (c.extractLsb' 8 8) (c.extractLsb' 0 8) = c := by
  apply BitVec.eq_of_getLsbD_eq
  intro i hi
  rw [getLsbD_crcOfBytes]
  split
  · simp [*]
  · have : 8 + (i - 8) = i := by omega
    have h' : i - 8 < 8 := by omega
    simp [this, h']

@[simp] theorem crcBytes_length (c : Word16) : (crcBytes c).length = 2 := rfl

/-- The serialisation of two bytes read as a checksum (R63). -/
theorem crcBytes_crcOfBytes (hi lo : Byte) : crcBytes (crcOfBytes hi lo) = [hi, lo] := by
  have h1 : (crcOfBytes hi lo).extractLsb' 8 8 = hi := by
    apply BitVec.eq_of_getLsbD_eq
    intro i hi
    simp [getLsbD_crcOfBytes, hi]
  have h0 : (crcOfBytes hi lo).extractLsb' 0 8 = lo := by
    apply BitVec.eq_of_getLsbD_eq
    intro i hi
    simp [getLsbD_crcOfBytes, hi]
  rw [crcBytes, h1, h0]

/-- The received bytes are the serialised checksum exactly when they read as it. -/
theorem crcOfBytes_eq_iff (hi lo : Byte) (c : Word16) : c = crcOfBytes hi lo ↔ crcBytes c = [hi, lo] := by
  constructor
  · rintro rfl
    exact crcBytes_crcOfBytes hi lo
  · intro h
    unfold crcBytes at h
    simp only [List.cons.injEq, and_true] at h
    rw [← crcOfBytes_crcBytes c, h.1, h.2]

end Sys2Proof.Machine
end

