-- ==== Sys2Proof/Laws/Sparse.lean ====
section
/-! SUPPORT. The laws of keyed lists: read after write, and that every operation keeps the keys rising. -/

namespace Sys2Proof.Machine

variable {α : Type}

@[simp] theorem lookupKey_nil (a : Nat) : lookupKey ([] : List (Nat × α)) a = none := rfl

theorem lookupKey_cons (k : Nat) (v : α) (m : List (Nat × α)) (a : Nat) :
    lookupKey ((k, v) :: m) a = if k = a then some v else lookupKey m a := rfl

/-- What a key set reads as, at every key. -/
theorem lookupKey_insertKey (m : List (Nat × α)) (a : Nat) (v : α) (b : Nat) :
    lookupKey (insertKey m a v) b = if b = a then some v else lookupKey m b := by
  induction m with
  | nil => simp only [insertKey, lookupKey, eq_comm]
  | cons c m ih =>
    obtain ⟨k, w⟩ := c
    simp only [insertKey]
    split
    · simp only [lookupKey, eq_comm (a := b)]
    · split
      · subst_vars
        simp only [lookupKey, eq_comm (a := b)]
        split <;> simp_all
      · simp only [lookupKey, ih]
        by_cases hb : b = a
        · subst hb
          have hk : k ≠ b := fun h => by omega
          simp [hk]
        · simp [hb]

/-- What a list without a key reads as, at every key. -/
theorem lookupKey_eraseKey (m : List (Nat × α)) (a b : Nat) :
    lookupKey (eraseKey m a) b = if b = a then none else lookupKey m b := by
  induction m with
  | nil => simp [eraseKey, lookupKey]
  | cons c m ih =>
    obtain ⟨k, w⟩ := c
    have ih' : lookupKey (m.filter (fun c => decide (c.1 ≠ a))) b = if b = a then none else lookupKey m b := ih
    by_cases hk : k = a
    · subst hk
      by_cases hb : b = k
      · simp_all [eraseKey]
      · simp_all [eraseKey, lookupKey, Ne.symm hb]
    · by_cases hb : b = a
      · simp_all [eraseKey, lookupKey]
      · simp_all [eraseKey, lookupKey]

/-- What a list cut at a bound reads as, at every key. -/
theorem lookupKey_belowKey (m : List (Nat × α)) (n b : Nat) :
    lookupKey (belowKey m n) b = if b < n then lookupKey m b else none := by
  induction m with
  | nil => simp [belowKey, lookupKey]
  | cons c m ih =>
    obtain ⟨k, w⟩ := c
    have ih' : lookupKey (m.filter (fun c => decide (c.1 < n))) b = if b < n then lookupKey m b else none := ih
    by_cases hk : k < n
    · by_cases hb : b < n
      · simp_all [belowKey, lookupKey]
      · have : k ≠ b := by omega
        simp_all [belowKey, lookupKey]
    · by_cases hb : b < n
      · have : k ≠ b := by omega
        simp_all [belowKey, lookupKey]
      · simp_all [belowKey]

/-- A key listed by a set list is the key set or was listed before. -/
theorem mem_insertKey {m : List (Nat × α)} {a : Nat} {v : α} {c : Nat × α} (h : c ∈ insertKey m a v) :
    c = (a, v) ∨ c ∈ m := by
  induction m with
  | nil => simpa [insertKey] using h
  | cons d m ih =>
    obtain ⟨k, w⟩ := d
    simp only [insertKey] at h
    split at h
    · simpa using h
    · split at h
      · rcases List.mem_cons.mp h with h | h
        · exact .inl h
        · exact .inr (List.mem_cons_of_mem _ h)
      · rcases List.mem_cons.mp h with h | h
        · exact .inr (h ▸ List.mem_cons_self)
        · exact (ih h).imp id (List.mem_cons_of_mem _)

/-- Setting a key keeps the keys rising. -/
theorem pairwise_insertKey {m : List (Nat × α)} (h : m.Pairwise (fun x y => x.1 < y.1)) (a : Nat) (v : α) :
    (insertKey m a v).Pairwise (fun x y => x.1 < y.1) := by
  induction m with
  | nil => simp [insertKey]
  | cons c m ih =>
    obtain ⟨k, w⟩ := c
    rw [List.pairwise_cons] at h
    simp only [insertKey]
    split
    · refine List.pairwise_cons.mpr ⟨fun d hd => ?_, List.pairwise_cons.mpr h⟩
      rcases List.mem_cons.mp hd with rfl | hd
      · assumption
      · exact Nat.lt_trans ‹_› (h.1 d hd)
    · split
      · subst_vars
        exact List.pairwise_cons.mpr h
      · refine List.pairwise_cons.mpr ⟨fun d hd => ?_, ih h.2⟩
        rcases mem_insertKey hd with rfl | hd
        · simp only; omega
        · exact h.1 d hd

theorem pairwise_eraseKey {m : List (Nat × α)} (h : m.Pairwise (fun x y => x.1 < y.1)) (a : Nat) :
    (eraseKey m a).Pairwise (fun x y => x.1 < y.1) := h.filter _

theorem pairwise_belowKey {m : List (Nat × α)} (h : m.Pairwise (fun x y => x.1 < y.1)) (n : Nat) :
    (belowKey m n).Pairwise (fun x y => x.1 < y.1) := h.filter _

/-- A listed entry of a list with rising keys is what its key reads as. -/
theorem lookupKey_of_mem {m : List (Nat × α)} (h : m.Pairwise (fun x y => x.1 < y.1)) {c : Nat × α} (hc : c ∈ m) :
    lookupKey m c.1 = some c.2 := by
  induction m with
  | nil => cases hc
  | cons d m ih =>
    obtain ⟨k, w⟩ := d
    rw [List.pairwise_cons] at h
    rcases List.mem_cons.mp hc with rfl | hc
    · simp [lookupKey]
    · have : k ≠ c.1 := Nat.ne_of_lt (h.1 c hc)
      simp [lookupKey, this, ih h.2 hc]

/-- What a key reads as is listed. -/
theorem mem_of_lookupKey {m : List (Nat × α)} {a : Nat} {v : α} (h : lookupKey m a = some v) : (a, v) ∈ m := by
  induction m with
  | nil => cases h
  | cons d m ih =>
    obtain ⟨k, w⟩ := d
    simp only [lookupKey] at h
    split at h
    · subst_vars
      simp_all
    · exact List.mem_cons_of_mem _ (ih h)

/-- Setting a key to the value it reads as changes nothing. -/
theorem insertKey_self {m : List (Nat × α)} (h : m.Pairwise (fun x y => x.1 < y.1)) {a : Nat} {v : α}
    (hv : lookupKey m a = some v) : insertKey m a v = m := by
  induction m with
  | nil => cases hv
  | cons d m ih =>
    obtain ⟨k, w⟩ := d
    rw [List.pairwise_cons] at h
    simp only [lookupKey] at hv
    simp only [insertKey]
    split at hv
    · subst_vars
      simp_all
    · have hk := h.1 _ (mem_of_lookupKey hv)
      simp only at hk
      simp [Nat.not_lt.mpr (Nat.le_of_lt hk), Nat.ne_of_gt hk, ih h.2 hv]

/-- Leaving out a key that is not listed changes nothing. -/
theorem eraseKey_self {m : List (Nat × α)} {a : Nat} (h : ∀ c ∈ m, c.1 ≠ a) : eraseKey m a = m := by
  simp only [eraseKey, List.filter_eq_self, decide_eq_true_eq]
  exact h

end Sys2Proof.Machine
end

