-- ==== Sys2Proof/Laws/Memory.lean ====
section
/-! SUPPORT. The laws of the frame buffer: what each operation makes it read as, and that each keeps its canonical form
(R22, R61, R62). -/

namespace Sys2Proof.Machine

@[simp] theorem Memory.read_nil (a : Nat) : Memory.read [] a = none := rfl

/-- Read after write, at every index. -/
theorem Memory.read_write (m : Memory) (a : Nat) (v : Byte) (b : Nat) :
    (m.write a v).read b = if b = a then some v else m.read b := lookupKey_insertKey m a v b

/-- Read after trim, at every index. -/
theorem Memory.read_trim (m : Memory) (n b : Nat) : (m.trim n).read b = if b < n then m.read b else none :=
  lookupKey_belowKey m n b

theorem Memory.wf_nil : Memory.wf [] := List.Pairwise.nil

/-- A write keeps the canonical form. -/
theorem Memory.wf_write {m : Memory} (h : m.wf) (a : Nat) (v : Byte) : (m.write a v).wf := pairwise_insertKey h a v

/-- A trim keeps the canonical form. -/
theorem Memory.wf_trim {m : Memory} (h : m.wf) (n : Nat) : (m.trim n).wf := pairwise_belowKey h n

@[simp] theorem Memory.readRange_zero (m : Memory) (i : Nat) : m.readRange i 0 = some [] := rfl

/-- A range reads as `s` exactly when it is as long as `s` and each index reads as its byte. -/
theorem Memory.readRange_eq_some {m : Memory} {i n : Nat} {s : List Byte} :
    m.readRange i n = some s ↔ s.length = n ∧ ∀ k, k < n → m.read (i + k) = s[k]? := by
  induction n generalizing i s with
  | zero =>
    cases s <;> simp
  | succ n ih =>
    simp only [Memory.readRange]
    constructor
    · intro h
      split at h
      · rename_i b t hb ht
        cases h
        obtain ⟨hl, hr⟩ := ih.mp ht
        refine ⟨by simp [hl], fun k hk => ?_⟩
        cases k with
        | zero => simpa using hb
        | succ k => simpa [Nat.add_assoc, Nat.add_comm 1 k] using hr k (by omega)
      · cases h
    · rintro ⟨hl, hr⟩
      cases s with
      | nil => simp at hl
      | cons b t =>
        have hb : m.read i = some b := by simpa using hr 0 (by omega)
        have ht : m.readRange (i + 1) n = some t :=
          ih.mpr ⟨by simpa using hl, fun k hk => by
            simpa [Nat.add_assoc, Nat.add_comm 1 k] using hr (k + 1) (by omega)⟩
        simp [hb, ht]

/-- A range depends only on the bytes inside it. -/
theorem Memory.readRange_congr {m m' : Memory} {i n : Nat} (h : ∀ k, i ≤ k → k < i + n → m.read k = m'.read k) :
    m.readRange i n = m'.readRange i n := by
  induction n generalizing i with
  | zero => rfl
  | succ n ih =>
    have ht : m.readRange (i + 1) n = m'.readRange (i + 1) n := ih (fun k hk hk' => h k (by omega) (by omega))
    simp only [Memory.readRange, h i (by omega) (by omega), ht]

/-- The range of a byte appended. -/
theorem Memory.readRange_write_end {m : Memory} {n : Nat} {s : List Byte} (h : m.readRange 0 n = some s) (v : Byte) :
    (m.write n v).readRange 0 (n + 1) = some (s ++ [v]) := by
  obtain ⟨hl, hr⟩ := Memory.readRange_eq_some.mp h
  refine Memory.readRange_eq_some.mpr ⟨by simp [hl], fun k hk => ?_⟩
  rw [Memory.read_write]
  by_cases hkn : k = n
  · subst hkn
    simp [← hl]
  · have hk' : k < n := by omega
    have := hr k hk'
    simp only [Nat.zero_add] at this ⊢
    rw [if_neg hkn, this, List.getElem?_append_left (by omega)]

/-- The range of the bytes a trim keeps. -/
theorem Memory.readRange_trim (m : Memory) (n : Nat) : (m.trim n).readRange 0 n = m.readRange 0 n :=
  Memory.readRange_congr (fun k _ hk => by rw [Memory.read_trim, if_pos (by omega)])

/-- A part of a range that reads as a whole. -/
theorem Memory.readRange_append {m : Memory} {i : Nat} {s t : List Byte}
    (h : m.readRange i (s.length + t.length) = some (s ++ t)) :
    m.readRange i s.length = some s ∧ m.readRange (i + s.length) t.length = some t := by
  obtain ⟨_, hr⟩ := Memory.readRange_eq_some.mp h
  refine ⟨Memory.readRange_eq_some.mpr ⟨rfl, fun k hk => ?_⟩, Memory.readRange_eq_some.mpr ⟨rfl, fun k hk => ?_⟩⟩
  · rw [hr k (by omega), List.getElem?_append_left hk]
  · rw [Nat.add_assoc, hr (s.length + k) (by omega), List.getElem?_append_right (by omega)]
    simp

end Sys2Proof.Machine
end

