-- ==== Sys2Proof/Laws/State.lean ====
section
/-! SUPPORT. One lemma per field per update of a record, and the small equations of the shared operations, so that no later
proof unfolds a record update. -/

namespace Sys2Proof.Machine

variable (s : State) (F : Frame) (lc : LinkController) (t : Transport)

/-! ### returns, endOp, emit -/

@[simp] theorem returns_frames (r : Result) : (s.returns r).frames = s.frames := rfl
@[simp] theorem returns_lc (r : Result) : (s.returns r).lc = s.lc := rfl
@[simp] theorem returns_env (r : Result) : (s.returns r).env = s.env := rfl
@[simp] theorem returns_clock (r : Result) : (s.returns r).clock = s.clock := rfl
@[simp] theorem returns_foreground (r : Result) : (s.returns r).foreground = s.foreground := rfl
@[simp] theorem returns_outputs (r : Result) : (s.returns r).outputs = s.outputs ++ [.result r] := rfl
@[simp] theorem returns_results (r : Result) : (s.returns r).results = s.results ++ [r] := by
  simp [State.results, Output.result?]
@[simp] theorem returns_events (r : Result) : (s.returns r).events = s.events := by
  simp [State.events, Output.event?]
@[simp] theorem returns_inputs (r : Result) : (s.returns r).inputs = s.inputs := rfl

@[simp] theorem endOp_frames (r : Result) : (s.endOp r).frames = s.frames := rfl
@[simp] theorem endOp_lc (r : Result) : (s.endOp r).lc = s.lc := rfl
@[simp] theorem endOp_env (r : Result) : (s.endOp r).env = s.env := rfl
@[simp] theorem endOp_clock (r : Result) : (s.endOp r).clock = s.clock := rfl
@[simp] theorem endOp_foreground (r : Result) : (s.endOp r).foreground = .idle := rfl
@[simp] theorem endOp_outputs (r : Result) : (s.endOp r).outputs = s.outputs ++ [.result r] := rfl
@[simp] theorem endOp_results (r : Result) : (s.endOp r).results = s.results ++ [r] := by
  simp [State.results, Output.result?]
@[simp] theorem endOp_events (r : Result) : (s.endOp r).events = s.events := by
  simp [State.events, Output.event?]
@[simp] theorem endOp_inputs (r : Result) : (s.endOp r).inputs = s.inputs := rfl

@[simp] theorem emit_frames (e : Event) : (s.emit e).frames = s.frames := rfl
@[simp] theorem emit_lc (e : Event) : (s.emit e).lc = s.lc := rfl
@[simp] theorem emit_env (e : Event) : (s.emit e).env = s.env := rfl
@[simp] theorem emit_clock (e : Event) : (s.emit e).clock = s.clock := rfl
@[simp] theorem emit_foreground (e : Event) : (s.emit e).foreground = s.foreground := rfl
@[simp] theorem emit_outputs (e : Event) : (s.emit e).outputs = s.outputs ++ [.event e] := rfl
@[simp] theorem emit_results (e : Event) : (s.emit e).results = s.results := by
  simp [State.results, Output.result?]
@[simp] theorem emit_events (e : Event) : (s.emit e).events = s.events ++ [e] := by
  simp [State.events, Output.event?]
@[simp] theorem emit_inputs (e : Event) : (s.emit e).inputs = s.inputs := rfl

/-! ### setFrame, putFrame -/

@[simp] theorem setFrame_lc (f : Nat) : (s.setFrame f F).lc = s.lc := rfl
@[simp] theorem setFrame_env (f : Nat) : (s.setFrame f F).env = s.env := rfl
@[simp] theorem setFrame_clock (f : Nat) : (s.setFrame f F).clock = s.clock := rfl
@[simp] theorem setFrame_foreground (f : Nat) : (s.setFrame f F).foreground = s.foreground := rfl
@[simp] theorem setFrame_outputs (f : Nat) : (s.setFrame f F).outputs = s.outputs := rfl
@[simp] theorem setFrame_results (f : Nat) : (s.setFrame f F).results = s.results := rfl
@[simp] theorem setFrame_events (f : Nat) : (s.setFrame f F).events = s.events := rfl
@[simp] theorem setFrame_inputs (f : Nat) : (s.setFrame f F).inputs = s.inputs := rfl

@[simp] theorem putFrame_frames (f : Nat) (b : Bool) : (s.putFrame f F b).frames = (s.setFrame f F).frames := rfl
@[simp] theorem putFrame_lc (f : Nat) (b : Bool) : (s.putFrame f F b).lc = s.lc := rfl
@[simp] theorem putFrame_env (f : Nat) (b : Bool) : (s.putFrame f F b).env = s.env := rfl
@[simp] theorem putFrame_clock (f : Nat) (b : Bool) : (s.putFrame f F b).clock = s.clock := rfl
@[simp] theorem putFrame_foreground (f : Nat) (b : Bool) : (s.putFrame f F b).foreground = s.foreground := rfl
@[simp] theorem putFrame_outputs (f : Nat) (b : Bool) : (s.putFrame f F b).outputs = s.outputs ++ [.result (.terminal b)] :=
  rfl
@[simp] theorem putFrame_results (f : Nat) (b : Bool) : (s.putFrame f F b).results = s.results ++ [.terminal b] := by
  simp [State.results, Output.result?]
@[simp] theorem putFrame_events (f : Nat) (b : Bool) : (s.putFrame f F b).events = s.events := by
  simp [State.events, Output.event?]
@[simp] theorem putFrame_inputs (f : Nat) (b : Bool) : (s.putFrame f F b).inputs = s.inputs := rfl

/-! ### The Link Controller's updates -/

@[simp] theorem handoff_currentFrame : (lc.handoff F).currentFrame = none := rfl
@[simp] theorem handoff_lastFrame : (lc.handoff F).lastFrame = some F := rfl
@[simp] theorem handoff_running : (lc.handoff F).running = lc.running := rfl
@[simp] theorem handoff_workerAlive : (lc.handoff F).workerAlive = lc.workerAlive := rfl
@[simp] theorem handoff_frameCallback : (lc.handoff F).frameCallback = lc.frameCallback := rfl
@[simp] theorem handoff_errorCallback : (lc.handoff F).errorCallback = lc.errorCallback := rfl
@[simp] theorem handoff_transport : (lc.handoff F).transport = lc.transport := rfl
@[simp] theorem handoff_deadline : (lc.handoff F).deadline = lc.deadline := rfl

@[simp] theorem clearRunning_running : s.clearRunning.lc.running = false := rfl
@[simp] theorem clearRunning_workerAlive : s.clearRunning.lc.workerAlive = s.lc.workerAlive := rfl
@[simp] theorem clearRunning_currentFrame : s.clearRunning.lc.currentFrame = s.lc.currentFrame := rfl
@[simp] theorem clearRunning_lastFrame : s.clearRunning.lc.lastFrame = s.lc.lastFrame := rfl
@[simp] theorem clearRunning_frames : s.clearRunning.frames = s.frames := rfl
@[simp] theorem clearRunning_env : s.clearRunning.env = s.env := rfl
@[simp] theorem clearRunning_events : s.clearRunning.events = s.events := rfl
@[simp] theorem clearRunning_outputs : s.clearRunning.outputs = s.outputs := rfl
@[simp] theorem clearRunning_results : s.clearRunning.results = s.results := rfl

@[simp] theorem workerExit_running : s.workerExit.lc.running = s.lc.running := rfl
@[simp] theorem workerExit_workerAlive : s.workerExit.lc.workerAlive = false := rfl
@[simp] theorem workerExit_currentFrame : s.workerExit.lc.currentFrame = s.lc.currentFrame := rfl
@[simp] theorem workerExit_lastFrame : s.workerExit.lc.lastFrame = s.lc.lastFrame := rfl
@[simp] theorem workerExit_frames : s.workerExit.frames = s.frames := rfl
@[simp] theorem workerExit_env : s.workerExit.env = s.env := rfl
@[simp] theorem workerExit_events : s.workerExit.events = s.events := rfl
@[simp] theorem workerExit_outputs : s.workerExit.outputs = s.outputs := rfl
@[simp] theorem workerExit_results : s.workerExit.results = s.results := rfl
@[simp] theorem workerExit_foreground : s.workerExit.foreground = s.foreground := rfl

@[simp] theorem beginRead_frames (n : Nat) : (s.beginRead n).frames = s.frames := rfl
@[simp] theorem beginRead_env (n : Nat) : (s.beginRead n).env = s.env := rfl
@[simp] theorem beginRead_clock (n : Nat) : (s.beginRead n).clock = s.clock := rfl
@[simp] theorem beginRead_foreground (n : Nat) : (s.beginRead n).foreground = .reading := rfl
@[simp] theorem beginRead_outputs (n : Nat) : (s.beginRead n).outputs = s.outputs := rfl
@[simp] theorem beginRead_results (n : Nat) : (s.beginRead n).results = s.results := rfl
@[simp] theorem beginRead_events (n : Nat) : (s.beginRead n).events = s.events := rfl
@[simp] theorem beginRead_inputs (n : Nat) : (s.beginRead n).inputs = s.inputs := rfl
@[simp] theorem beginRead_lc (n : Nat) : (s.beginRead n).lc = { s.lc with deadline := n } := rfl

/-! ### Time: a test of the deadline touches the clock alone -/

@[simp] theorem expired_frames : s.expired.2.frames = s.frames := by unfold State.expired; split <;> [rfl; (split <;> rfl)]
@[simp] theorem expired_lc : s.expired.2.lc = s.lc := by unfold State.expired; split <;> [rfl; (split <;> rfl)]
@[simp] theorem expired_env : s.expired.2.env = s.env := by unfold State.expired; split <;> [rfl; (split <;> rfl)]
@[simp] theorem expired_foreground : s.expired.2.foreground = s.foreground := by
  unfold State.expired; split <;> [rfl; (split <;> rfl)]
@[simp] theorem expired_outputs : s.expired.2.outputs = s.outputs := by
  unfold State.expired; split <;> [rfl; (split <;> rfl)]
@[simp] theorem expired_results : s.expired.2.results = s.results := by simp [State.results]
@[simp] theorem expired_events : s.expired.2.events = s.events := by simp [State.events]
@[simp] theorem expired_inputs : s.expired.2.inputs = s.inputs := by
  unfold State.expired; split <;> [rfl; (split <;> rfl)]

/-! ### The transport's updates -/

@[simp] theorem txWrite_txlog (w : List Byte) : (t.txWrite w).txlog = t.txlog ++ w := rfl
@[simp] theorem txWrite_rxq (w : List Byte) : (t.txWrite w).rxq = t.rxq := rfl
@[simp] theorem txWrite_rxClosed (w : List Byte) : (t.txWrite w).rxClosed = t.rxClosed := rfl
@[simp] theorem rxFlush_rxq : t.rxFlush.rxq = [] := rfl
@[simp] theorem rxFlush_txlog : t.rxFlush.txlog = t.txlog := rfl
@[simp] theorem settle_rxq : t.settle.rxq = t.rxq := by unfold Transport.settle; split <;> rfl
@[simp] theorem settle_txlog : t.settle.txlog = t.txlog := by unfold Transport.settle; split <;> rfl

/-- A stop becomes no next state. -/
@[simp] theorem outcome_ne_next (e : Stop) : e.outcome ≠ .next s := by cases e <;> simp [Stop.outcome]

/-- The host operations of an idle foreground. -/
theorem whenIdle_idle {s : State} (h : s.foreground = .idle) (o : StepOutcome) : whenIdle s o = o := by
  simp [whenIdle, h]

/-- The host operations of a foreground inside READ or STOP (R190, R237). -/
theorem whenIdle_busy {s : State} (h : s.foreground ≠ .idle) (o : StepOutcome) :
    whenIdle s o = .refused .foregroundBusy := by
  unfold whenIdle; split <;> simp_all

/-- A host operation answers a next state only from an idle foreground. -/
theorem whenIdle_eq_next {s t : State} {o : StepOutcome} (h : whenIdle s o = .next t) :
    s.foreground = .idle ∧ o = .next t := by
  by_cases hs : s.foreground = .idle
  · exact ⟨hs, by rwa [whenIdle_idle hs] at h⟩
  · rw [whenIdle_busy hs] at h; cases h

/-- The reset state's memory is in canonical form: no Frame holds a buffer at reset (R42). -/
theorem reset_frames : State.reset.frames = [] := rfl

/-- Construction on a silent transport gives the reset state, whether or not it flushes (R175, R252). -/
theorem construct_reset : State.construct 0 State.reset.env = State.reset := by
  unfold State.construct
  cases Config.flushOnInit <;> rfl

end Sys2Proof.Machine
end

