-- ==== Sys2Proof/Laws/Frame.lean ====
section
/-! SUPPORT. What the shared operations on Frames can do, said once: the access primitives, Append, Finish, the arms of
`addByte`, the feeding of several bytes, and the bank of standalone Frames. -/

namespace Sys2Proof.Machine

/-! ### The bank of standalone Frames -/

/-- Every handle's Frame after one was replaced. -/
theorem frameAt_setFrame (s : State) (f : Nat) (F : Frame) (g : Nat) :
    (s.setFrame f F).frameAt g = if g = f then F else s.frameAt g := by
  unfold State.setFrame State.frameAt
  split
  · rename_i hF
    simp only [lookupKey_eraseKey]
    split
    · simp [hF]
    · rfl
  · simp only [lookupKey_insertKey]
    split <;> rfl

@[simp] theorem frameAt_setFrame_self (s : State) (f : Nat) (F : Frame) : (s.setFrame f F).frameAt f = F := by
  rw [frameAt_setFrame, if_pos rfl]

@[simp] theorem frameAt_putFrame (s : State) (f : Nat) (F : Frame) (b : Bool) (g : Nat) :
    (s.putFrame f F b).frameAt g = if g = f then F else s.frameAt g := frameAt_setFrame s f F g

@[simp] theorem frameAt_returns (s : State) (r : Result) (g : Nat) : (s.returns r).frameAt g = s.frameAt g := rfl

/-- A handle not yet used names a fresh Frame (R134). -/
theorem frameAt_unused {s : State} {f : Nat} (h : lookupKey s.frames f = none) : s.frameAt f = Frame.fresh := by
  simp [State.frameAt, h]

/-- Replacing a Frame keeps the bank's form. -/
theorem bankWf_setFrame {s : State} (h : bankWf s.frames) (f : Nat) (F : Frame) : bankWf (s.setFrame f F).frames := by
  unfold State.setFrame
  split
  · exact ⟨pairwise_eraseKey h.1 f, fun c hc => h.2 c (List.mem_filter.mp hc).1⟩
  · exact ⟨pairwise_insertKey h.1 f F, fun c hc => by
      rcases mem_insertKey hc with rfl | hc
      · assumption
      · exact h.2 c hc⟩

/-- The bank of the reset state has the form. -/
theorem bankWf_reset : bankWf State.reset.frames := ⟨List.Pairwise.nil, by simp [State.reset]⟩

/-- The buffer of a fresh Frame is in canonical form. -/
theorem fresh_data_wf : Frame.fresh.data.wf := List.Pairwise.nil

/-- A property of the replacing Frame and of every listed Frame holds of every Frame listed after. -/
theorem frames_setFrame {s : State} {P : Frame → Prop} (h : ∀ c ∈ s.frames, P c.2) (f : Nat) {F : Frame} (hF : P F) :
    ∀ c ∈ (s.setFrame f F).frames, P c.2 := by
  unfold State.setFrame
  split
  · exact fun c hc => h c (List.mem_filter.mp hc).1
  · intro c hc
    rcases mem_insertKey hc with rfl | hc
    · exact hF
    · exact h c hc

/-- A property of a fresh Frame and of every listed Frame holds of every handle's Frame. -/
theorem frameAt_of_frames {s : State} {P : Frame → Prop} (h : ∀ c ∈ s.frames, P c.2) (h0 : P Frame.fresh) (f : Nat) :
    P (s.frameAt f) := by
  unfold State.frameAt
  cases hl : lookupKey s.frames f with
  | none => exact h0
  | some F => exact h _ (mem_of_lookupKey hl)

/-- Writing a Frame back as it is changes nothing in a bank in canonical form. -/
theorem setFrame_self {s : State} (h : bankWf s.frames) (f : Nat) : s.setFrame f (s.frameAt f) = s := by
  unfold State.setFrame State.frameAt
  cases hl : lookupKey s.frames f with
  | none =>
    have he : eraseKey s.frames f = s.frames := eraseKey_self (fun c hc hcf => by
      have := lookupKey_of_mem h.1 hc
      rw [hcf, hl] at this
      cases this)
    simp [he]
  | some F =>
    have hF : F ≠ Frame.fresh := h.2 _ (mem_of_lookupKey hl)
    simp [hF, insertKey_self h.1 hl]

/-! ### The access primitives -/

/-- `MemRead` of a range that holds bytes (R62). -/
theorem memRead_ok {F : Frame} {i n : Nat} {p : List Byte} (hb : i + n ≤ F.len) (h : F.data.readRange i n = some p) :
    F.memRead i n = .ok p := by
  simp [Frame.memRead, hb, h]

/-- `MemWrite` below MAX_FRAME (R62). -/
theorem memWrite_ok {F : Frame} {i : Nat} (hi : i < Config.maxFrame) (v : Byte) :
    F.memWrite i v = .ok { F with data := F.data.write i v } := by
  rw [Frame.memWrite, if_pos hi]

/-! ### Append and Finish -/

/-- Append to a buffer with room (R129). -/
theorem append_room {F : Frame} (h : F.len < Config.maxFrame) (v : Byte) :
    F.append v = .ok ({ F with data := F.data.write F.len v, len := F.len + 1 }, false) := by
  rw [Frame.append, if_neg (by omega), memWrite_ok h]

/-- Append to a full buffer (R130). -/
theorem append_full {F : Frame} (h : F.len = Config.maxFrame) (v : Byte) :
    F.append v = .ok ({ F with error := true, finished := true, errCode := .eTooBig }, true) := by
  rw [Frame.append, if_pos h]; rfl

/-- Append past a buffer's end, which no reachable Frame asks for (R62). -/
theorem append_past {F : Frame} (h : Config.maxFrame < F.len) (v : Byte) :
    F.append v = .error (.fault .writePastEnd) := by
  rw [Frame.append, if_neg (by omega), Frame.memWrite, if_neg (by omega)]

/-- The two reads of Finish, on a buffer that holds a payload and two bytes. -/
theorem finish_reads {F : Frame} {p : List Byte} {hi lo : Byte} (hl : F.len = p.length + 2)
    (h : F.data.readRange 0 F.len = some (p ++ [hi, lo])) :
    F.memRead (F.len - 2) 2 = .ok [hi, lo] ∧ F.memRead 0 (F.len - 2) = .ok p := by
  rw [hl] at h
  obtain ⟨hp, ht⟩ := Memory.readRange_append (s := p) (t := [hi, lo]) (by simpa using h)
  have hn : F.len - 2 = p.length := by omega
  rw [hn]
  refine ⟨memRead_ok (by omega) (by simpa using ht), memRead_ok (by omega) hp⟩

/-- Finish on a match (R131). -/
theorem finish_match {F : Frame} {p : List Byte} {hi lo : Byte} (hl : F.len = p.length + 2)
    (h : F.data.readRange 0 F.len = some (p ++ [hi, lo])) (hc : crc16 p = crcOfBytes hi lo) :
    F.finish = .ok
      ({ F with
          crc := crcOfBytes hi lo, data := F.data.trim p.length, len := p.length, finished := true, error := false },
        true) := by
  have hn : F.len - 2 = p.length := by omega
  simp only [Frame.finish, finish_reads hl h, if_pos hc]
  simp only [hn, Frame.trimTo, Frame.successFlags]

/-- Finish on a mismatch (R131). -/
theorem finish_mismatch {F : Frame} {p : List Byte} {hi lo : Byte} (hl : F.len = p.length + 2)
    (h : F.data.readRange 0 F.len = some (p ++ [hi, lo])) (hc : crc16 p ≠ crcOfBytes hi lo) :
    F.finish = .ok ({ F with crc := crcOfBytes hi lo, error := true, finished := true, errCode := .eCrc }, true) := by
  simp only [Frame.finish, finish_reads hl h, if_neg hc, Frame.abort, Frame.failFlags]

/-- Everything Finish can answer. -/
theorem finish_cases {F G : Frame} {t : Bool} (h : F.finish = .ok (G, t)) :
    t = true ∧ ∃ hi lo p, F.memRead (F.len - 2) 2 = .ok [hi, lo] ∧ F.memRead 0 (F.len - 2) = .ok p ∧
      ((crc16 p = crcOfBytes hi lo ∧
          G = { F with
            crc := crcOfBytes hi lo, data := F.data.trim (F.len - 2), len := F.len - 2, finished := true,
            error := false }) ∨
        (crc16 p ≠ crcOfBytes hi lo ∧
          G = { F with crc := crcOfBytes hi lo, error := true, finished := true, errCode := .eCrc })) := by
  unfold Frame.finish at h
  split at h
  · rename_i hi lo p h2 hp
    simp only at h
    split at h
    · cases h; exact ⟨rfl, hi, lo, p, h2, hp, .inl ⟨‹_›, rfl⟩⟩
    · cases h; exact ⟨rfl, hi, lo, p, h2, hp, .inr ⟨‹_›, rfl⟩⟩
  · cases h
  · cases h
  · cases h

/-! ### addByte -/

/-- A byte fed to a finished Frame (R121). -/
theorem addByte_finished {F : Frame} (h : F.finished = true) (b : Byte) :
    F.addByte b = .error (.refused .frameFinished) := by
  simp [Frame.addByte, h]

/-- A byte fed to a Frame in progress runs the arm R94 selects (R120). -/
theorem addByte_arm {F : Frame} (h : F.finished = false) (b : Byte) :
    F.addByte b = F.arm (classifyRx F.state F.len b) b := by
  simp [Frame.addByte, h]

theorem classifyRx_end_escaping (n : Nat) : classifyRx .escaping n Config.endByte = .endEsc := rfl

theorem classifyRx_end_fin {n : Nat} (h : Config.minFinish ≤ n) : classifyRx .reading n Config.endByte = .endFin := by
  simp only [classifyRx, if_true, if_pos h]

theorem classifyRx_end_skip {n : Nat} (h : n < Config.minFinish) : classifyRx .reading n Config.endByte = .endSkip := by
  simp only [classifyRx, if_true, if_neg (Nat.not_le.mpr h)]

theorem classifyRx_esc (n : Nat) : classifyRx .reading n Config.escByte = .esc := rfl

theorem classifyRx_dataEsc (n : Nat) {b : Byte} (h : b ≠ Config.endByte) : classifyRx .escaping n b = .dataEsc := by
  rw [classifyRx, if_neg h]

theorem classifyRx_data (n : Nat) {b : Byte} (h : b ≠ Config.endByte) (h' : b ≠ Config.escByte) :
    classifyRx .reading n b = .data := by
  rw [classifyRx, if_neg h]; exact if_neg h'

/-- Everything a byte fed to a Frame can do (R135): the six rows, each with its condition and its effect. -/
theorem addByte_cases {F G : Frame} {b : Byte} {t : Bool} (h : F.addByte b = .ok (G, t)) :
    F.finished = false ∧
      ((b = Config.endByte ∧ F.state = .escaping ∧ t = true ∧
          G = { F with error := true, finished := true, errCode := .eFraming }) ∨
        (b = Config.endByte ∧ F.state = .reading ∧ Config.minFinish ≤ F.len ∧ F.finish = .ok (G, t)) ∨
        (b = Config.endByte ∧ F.state = .reading ∧ F.len < Config.minFinish ∧ t = false ∧ G = F) ∨
        (b = Config.escByte ∧ F.state = .reading ∧ t = false ∧ G = { F with state := .escaping }) ∨
        (b ≠ Config.endByte ∧ F.state = .escaping ∧ { F with state := .reading }.append (maskByte b) = .ok (G, t)) ∨
        (b ≠ Config.endByte ∧ b ≠ Config.escByte ∧ F.state = .reading ∧ F.append b = .ok (G, t))) := by
  unfold Frame.addByte at h
  split at h
  · cases h
  · rename_i hf
    refine ⟨by simpa using hf, ?_⟩
    unfold classifyRx at h
    by_cases hb : b = Config.endByte
    · subst hb
      cases hs : F.state with
      | escaping =>
        simp only [hs, if_true, Frame.arm, Frame.armEndEsc, Frame.abort, Frame.failFlags] at h
        cases h
        exact .inl ⟨rfl, rfl, rfl, rfl⟩
      | reading =>
        simp only [hs, if_true] at h
        by_cases hl : Config.minFinish ≤ F.len
        · rw [if_pos hl] at h
          exact .inr (.inl ⟨rfl, rfl, hl, h⟩)
        · rw [if_neg hl] at h
          simp only [Frame.arm, Frame.armEndSkip] at h
          cases h
          exact .inr (.inr (.inl ⟨rfl, rfl, by omega, rfl, rfl⟩))
    · rw [if_neg hb] at h
      cases hs : F.state with
      | escaping =>
        simp only [hs, Frame.arm, Frame.armDataEsc] at h
        exact .inr (.inr (.inr (.inr (.inl ⟨hb, rfl, h⟩))))
      | reading =>
        simp only [hs] at h
        by_cases he : b = Config.escByte
        · rw [if_pos he] at h
          simp only [Frame.arm, Frame.armEsc] at h
          cases h
          exact .inr (.inr (.inr (.inl ⟨he, rfl, rfl, rfl⟩)))
        · rw [if_neg he] at h
          exact .inr (.inr (.inr (.inr (.inr ⟨hb, he, rfl, h⟩))))

/-- Everything Append can answer (R129, R130). -/
theorem append_cases {F G : Frame} {v : Byte} {t : Bool} (h : F.append v = .ok (G, t)) :
    (F.len = Config.maxFrame ∧ t = true ∧ G = { F with error := true, finished := true, errCode := .eTooBig }) ∨
      (F.len < Config.maxFrame ∧ t = false ∧ G = { F with data := F.data.write F.len v, len := F.len + 1 }) := by
  rcases Nat.lt_trichotomy F.len Config.maxFrame with hl | hl | hl
  · rw [append_room hl] at h; cases h; exact .inr ⟨hl, rfl, rfl⟩
  · rw [append_full hl] at h; cases h; exact .inl ⟨hl, rfl, rfl⟩
  · rw [append_past hl] at h; cases h

/-- `reset()` gives a fresh Frame (R133, R134). -/
@[simp] theorem reset_eq_fresh (F : Frame) : F.reset = Frame.fresh := rfl

/-! ### Feeding several bytes -/

@[simp] theorem feed_nil (F : Frame) : F.feed [] = .ok (F, false, []) := rfl

/-- A byte that does not terminate the Frame. -/
theorem feed_cons_false {F G : Frame} {b : Byte} (h : F.addByte b = .ok (G, false)) (s : List Byte) :
    F.feed (b :: s) = G.feed s := by
  simp [Frame.feed, h]

/-- A byte that terminates the Frame; the bytes after it are not consumed (R168). -/
theorem feed_cons_true {F G : Frame} {b : Byte} (h : F.addByte b = .ok (G, true)) (s : List Byte) :
    F.feed (b :: s) = .ok (G, true, s) := by
  simp [Frame.feed, h]

theorem feed_cons_error {F : Frame} {b : Byte} {e : Stop} (h : F.addByte b = .error e) (s : List Byte) :
    F.feed (b :: s) = .error e := by
  simp [Frame.feed, h]

/-- Feeding a sequence that does not terminate the Frame, then another. -/
theorem feed_append {F G : Frame} {s : List Byte} (h : F.feed s = .ok (G, false, [])) (t : List Byte) :
    F.feed (s ++ t) = G.feed t := by
  induction s generalizing F with
  | nil => cases h; rfl
  | cons b s ih =>
    cases hb : F.addByte b with
    | error e => rw [feed_cons_error hb] at h; cases h
    | ok r =>
      obtain ⟨H, u⟩ := r
      cases u with
      | true => rw [feed_cons_true hb] at h; cases h
      | false =>
        rw [feed_cons_false hb] at h
        rw [List.cons_append, feed_cons_false hb, ih h]

/-! ### The meanings over the shared operation -/

/-- A receive symbol that R94 selects is the byte fed to its Frame. -/
theorem runSymbol_selected {sym : RxSym} {f : Nat} {b : Byte} {s : State}
    (h : classifyRx (s.frameAt f).state (s.frameAt f).len b = sym) : runSymbol sym f b s = feedFrame f b s :=
  if_pos (.inr h)

/-- A byte fed to a standalone Frame that has finished (R121). -/
theorem feedFrame_finished {f : Nat} {s : State} (h : (s.frameAt f).finished = true) (b : Byte) :
    feedFrame f b s = .refused .frameFinished := by
  rw [feedFrame, addByte_finished h]; rfl

/-- A receive symbol on a standalone Frame that has finished, whatever its row (R121). -/
theorem runSymbol_finished {f : Nat} {s : State} (h : (s.frameAt f).finished = true) (sym : RxSym) (b : Byte) :
    runSymbol sym f b s = .refused .frameFinished := by
  rw [runSymbol, if_pos (.inl h), feedFrame_finished h]

/-- Everything a byte fed to a standalone Frame can answer. -/
theorem feedFrame_eq_next {f : Nat} {b : Byte} {s t : State} (h : feedFrame f b s = .next t) :
    ∃ G u, (s.frameAt f).addByte b = .ok (G, u) ∧ t = s.putFrame f G u := by
  unfold feedFrame at h
  split at h
  · exact absurd h (outcome_ne_next _ _)
  · cases h; exact ⟨_, _, ‹_›, rfl⟩

theorem runSymbol_eq_next {sym : RxSym} {f : Nat} {b : Byte} {s t : State} (h : runSymbol sym f b s = .next t) :
    classifyRx (s.frameAt f).state (s.frameAt f).len b = sym ∧
      ∃ G u, (s.frameAt f).addByte b = .ok (G, u) ∧ t = s.putFrame f G u := by
  unfold runSymbol at h
  split at h
  · rename_i hc
    obtain ⟨G, u, hb, ht⟩ := feedFrame_eq_next h
    exact ⟨hc.resolve_left (by simp [(addByte_cases hb).1]), G, u, hb, ht⟩
  · cases h

end Sys2Proof.Machine
end

