-- ==== Sys2Proof/Laws/Link.lean ====
section
/-! SUPPORT. What the Link Controller's shared operations can do, said once: the transport, the poll iteration, READ's and the
worker's dispatch, and which step is which agent's. -/

namespace Sys2Proof.Machine

/-! ### The transport (R74) -/

/-- A pop from an open, unplanned, non-empty stream. -/
theorem rxPop_open {t : Transport} {b : Byte} {q : List Byte} (hq : t.rxq = b :: q) (hc : t.rxClosed = false)
    (hp : t.closeAfter = none) : t.rxPop = (some b, { t with rxq := q }) := by
  obtain ⟨rxq, rxClosed, closeAfter, txlog⟩ := t
  simp only at hq hc hp
  subst hq hc hp
  rfl

/-- A pop from a closed stream gives `EOS` and removes nothing. -/
theorem rxPop_closed {t : Transport} (hc : t.rxClosed = true) : t.rxPop = (none, t.settle) := by
  have : t.settle.rxClosed = true := by unfold Transport.settle; split <;> simp [hc]
  simp [Transport.rxPop, this]

/-- Everything a pop can answer. -/
theorem rxPop_cases (t : Transport) :
    ((t.rxPop).1 = none ∧ (t.rxPop).2 = t.settle) ∨
      ∃ b q, t.rxq = b :: q ∧ t.settle.rxClosed = false ∧
        t.rxPop = (some b, { t.settle with rxq := q, closeAfter := t.settle.closeAfter.map (· - 1) }) := by
  unfold Transport.rxPop
  simp only
  split
  · exact .inl ⟨rfl, rfl⟩
  · rename_i hc
    rw [settle_rxq]
    split
    · exact .inl ⟨rfl, rfl⟩
    · rename_i b q hq
      exact .inr ⟨b, q, hq, by simpa using hc, rfl⟩

/-! ### The poll iteration (R178) -/

@[simp] theorem drainLoop_zero (lc : LinkController) (t : Transport) : drainLoop 0 lc t = .ok (lc, t, .drained) := rfl

theorem drainLoop_eos {t u : Transport} (h : t.rxPop = (none, u)) (n : Nat) (lc : LinkController) :
    drainLoop (n + 1) lc t = .ok (lc, u, .eos) := by
  simp [drainLoop, h]

theorem drainLoop_error {t u : Transport} {b : Byte} {lc : LinkController} {e : Stop} (h : t.rxPop = (some b, u))
    (hb : lc.frameForByte.addByte b = .error e) (n : Nat) : drainLoop (n + 1) lc t = .error e := by
  simp [drainLoop, h, hb]

theorem drainLoop_terminal {t u : Transport} {b : Byte} {lc : LinkController} {F : Frame} (h : t.rxPop = (some b, u))
    (hb : lc.frameForByte.addByte b = .ok (F, true)) (n : Nat) :
    drainLoop (n + 1) lc t = .ok (lc.handoff F, u, .terminal F) := by
  simp [drainLoop, h, hb]

theorem drainLoop_continue {t u : Transport} {b : Byte} {lc : LinkController} {F : Frame} (h : t.rxPop = (some b, u))
    (hb : lc.frameForByte.addByte b = .ok (F, false)) (n : Nat) :
    drainLoop (n + 1) lc t = drainLoop n { lc with currentFrame := some F } u := by
  simp [drainLoop, h, hb]

/-- A poll of an empty stream (R178). -/
theorem drainOnce_empty {t : Transport} (h : t.rxq = []) (lc : LinkController) : drainOnce lc t = .ok (lc, t, .noData) := by
  simp [drainOnce, Transport.rxAvail, h]

/-- A poll of a stream with bytes (R178). -/
theorem drainOnce_loop {t : Transport} (h : t.rxq ≠ []) (lc : LinkController) :
    drainOnce lc t = drainLoop t.rxq.length lc t := by
  simp [drainOnce, Transport.rxAvail, h]

/-! ### What a terminal Frame means -/

theorem verdict_success {F : Frame} {p : List Byte} (hf : F.finished = true) (he : F.error = false)
    (h : F.data.readRange 0 F.len = some p) : F.verdict = .ok (.success p) := by
  rw [Frame.verdict, if_pos ⟨hf, he⟩, memRead_ok (by omega) h]

theorem verdict_failure {F : Frame} (hf : F.finished = true) (he : F.error = true) :
    F.verdict = .ok (.failure F.errCode) := by
  simp [Frame.verdict, hf, he]

/-! ### READ -/

/-- Everything READ's loop can answer in one iteration. -/
theorem readIteration_eq_next {s t : State} (h : readIteration s = .next t) :
    (s.expired.1 = true ∧ t = s.expired.2.endOp (.status .sTimeout)) ∨
      (s.expired.1 = false ∧ ∃ lc env d, drainOnce s.lc s.env = .ok (lc, env, d) ∧
        readDispatch d { s.expired.2 with lc := lc, env := env } = .next t) := by
  unfold readIteration at h
  split at h
  · cases h; exact .inl ⟨‹_›, rfl⟩
  · rename_i he
    refine .inr ⟨by simpa using he, ?_⟩
    unfold readPoll at h
    rw [expired_lc, expired_env] at h
    split at h
    · exact absurd h (outcome_ne_next _ _)
    · exact ⟨_, _, _, ‹_›, h⟩

/-- Everything READ's dispatch can answer. -/
theorem readDispatch_eq_next {d : Drained} {s t : State} (h : readDispatch d s = .next t) :
    ((d = .noData ∨ d = .drained) ∧ t = s) ∨ (d = .eos ∧ t = s.endOp (.status .sTransport)) ∨
      ∃ F v, d = .terminal F ∧ F.verdict = .ok v ∧ t = s.endOp v.readResult := by
  cases d with
  | noData => cases h; exact .inl ⟨.inl rfl, rfl⟩
  | drained => cases h; exact .inl ⟨.inr rfl, rfl⟩
  | eos => cases h; exact .inr (.inl ⟨rfl, rfl⟩)
  | terminal F =>
    simp only [readDispatch] at h
    split at h
    · exact absurd h (outcome_ne_next _ _)
    · cases h; exact .inr (.inr ⟨F, _, rfl, ‹_›, rfl⟩)

/-- A timeout of 0 has expired at once (R186). -/
theorem expired_of_zero {s : State} (h : s.lc.deadline = 0) : s.expired = (true, s) := if_pos h

/-- The answer for any other deadline is the environment's next one. -/
theorem expired_of_clock {s : State} (h : s.lc.deadline ≠ 0) :
    s.expired = (s.clock.headD false, { s with clock := s.clock.tail }) := by
  rw [State.expired, if_neg h]
  obtain ⟨frames, lc, env, clock, foreground, outputs, inputs⟩ := s
  cases clock <;> rfl

/-! ### The worker -/

/-- Everything the worker's iteration can answer. -/
theorem workerIteration_eq_next {s t : State} (h : workerIteration s = .next t) :
    (s.lc.running = false ∧ t = s.workerExit) ∨
      (s.lc.running = true ∧ ∃ lc env d, drainOnce s.lc s.env = .ok (lc, env, d) ∧
        workerDispatch d { s with lc := lc, env := env } = .next t) := by
  unfold workerIteration at h
  split at h
  · refine .inr ⟨‹_›, ?_⟩
    split at h
    · exact absurd h (outcome_ne_next _ _)
    · exact ⟨_, _, _, ‹_›, h⟩
  · rename_i hr
    cases h; exact .inl ⟨by simpa using hr, rfl⟩

/-- Everything the worker's dispatch can answer. -/
theorem workerDispatch_eq_next {d : Drained} {s t : State} (h : workerDispatch d s = .next t) :
    t = s ∨ ∃ F v e, d = .terminal F ∧ F.verdict = .ok v ∧ v.event s.lc = some e ∧ t = s.emit e := by
  cases d with
  | noData => cases h; exact .inl rfl
  | drained => cases h; exact .inl rfl
  | eos => cases h; exact .inl rfl
  | terminal F =>
    simp only [workerDispatch] at h
    split at h
    · exact absurd h (outcome_ne_next _ _)
    · split at h
      · cases h; exact .inl rfl
      · cases h; exact .inr ⟨F, _, _, rfl, ‹_›, ‹_›, rfl⟩

/-! ### Whose step it is (R8, log entry 8) -/

/-- A step is an operation of an idle foreground, or an agent's turn. -/
theorem step_of_fetch {s t : State} {c : List Byte} {i : Instr} (hf : fetchOp s = some (c, t))
    (hd : decode t.view c = .ok i) : step s = exec i t := by
  simp [step, hf, hd]

/-- A command that is no instruction is refused by its reason. -/
theorem step_of_fetch_error {s t : State} {c : List Byte} {e : DecodeError} (hf : fetchOp s = some (c, t))
    (hd : decode t.view c = .error e) : step s = .refused (.undecodable e) := by
  simp [step, hf, hd]

/-- The operation an idle foreground takes (R8). -/
theorem fetchOp_op {s : State} {c : List Byte} {rest : List Input} (hf : s.foreground = .idle)
    (hi : s.inputs = .op c :: rest) : fetchOp s = some (c, { s with inputs := rest }) := by
  unfold fetchOp
  rw [hf, hi]

/-- No operation is taken where the next input is none. -/
theorem fetchOp_none {s : State} (h : ∀ c rest, s.inputs ≠ .op c :: rest) : fetchOp s = none := by
  unfold fetchOp
  split
  · exact absurd ‹_› (h _ _)
  · rfl

/-- No operation is taken by a foreground inside READ or STOP. -/
theorem fetchOp_busy {s : State} (h : s.foreground ≠ .idle) : fetchOp s = none := by
  unfold fetchOp
  split
  · exact absurd ‹_› h
  · rfl

theorem step_of_no_fetch {s : State} (hf : fetchOp s = none) : step s = agentTurn s := by
  simp [step, hf]

theorem fetchOp_eq_some {s t : State} {c : List Byte} (h : fetchOp s = some (c, t)) :
    s.foreground = .idle ∧ ∃ rest, s.inputs = .op c :: rest ∧ t = { s with inputs := rest } := by
  unfold fetchOp at h
  split at h
  · cases h; exact ⟨‹_›, _, ‹_›, rfl⟩
  · cases h

/-- Everything a step can be. -/
theorem step_eq_next {s t : State} (h : step s = .next t) :
    (∃ c u i, fetchOp s = some (c, u) ∧ decode u.view c = .ok i ∧ exec i u = .next t) ∨
      (fetchOp s = none ∧ agentTurn s = .next t) := by
  unfold step at h
  split at h
  · rename_i c u hf
    split at h
    · exact .inl ⟨c, u, _, hf, ‹_›, h⟩
    · cases h
  · exact .inr ⟨‹_›, h⟩

end Sys2Proof.Machine
end

