-- ==== Sys2Proof/Laws/PerInstr.lean ====
section
/-! SUPPORT. The family TableWord: the first byte of every instruction's command is the word spec/opcode_table.json gives the
instruction's row (R104), under the row's mask. -/

namespace Sys2Proof.Laws.TableWord

/-- The match and the mask of the instruction's row in spec/opcode_table.json, copied from the table. -/
def row : Instr → Byte × Byte
  | .rxEndEsc _ => (0x7E, 0xFF)
  | .rxEndFin _ => (0x7E, 0xFF)
  | .rxEndSkip _ => (0x7E, 0xFF)
  | .rxEsc _ => (0x7D, 0xFF)
  | .rxDataEsc _ _ => (0x00, 0x00)
  | .rxData _ _ => (0x00, 0x00)
  | .txEsc7E => (0x7E, 0xFF)
  | .txEsc7D => (0x7D, 0xFF)
  | .txLit _ => (0x00, 0x00)
  | .txFlag => (0x7E, 0xFF)
  | .faAddbyte _ _ => (0x0, 0xF)
  | .faReset _ => (0x1, 0xF)
  | .crc16 _ => (0x2, 0xF)
  | .encode _ => (0x3, 0xF)
  | .send _ => (0x4, 0xF)
  | .read _ => (0x5, 0xF)
  | .start _ _ => (0x6, 0xF)
  | .stop => (0x7, 0xF)

/-- The command of the instruction begins with a byte of its row. -/
def Statement (i : Instr) : Prop := ∃ b rest, encode i = b :: rest ∧ b &&& (row i).2 = (row i).1

theorem rxEndEsc (f : Nat) : Statement (.rxEndEsc f) := ⟨_, _, rfl, (by decide : (0x7E : Byte) &&& 0xFF = 0x7E)⟩
theorem rxEndFin (f : Nat) : Statement (.rxEndFin f) := ⟨_, _, rfl, (by decide : (0x7E : Byte) &&& 0xFF = 0x7E)⟩
theorem rxEndSkip (f : Nat) : Statement (.rxEndSkip f) := ⟨_, _, rfl, (by decide : (0x7E : Byte) &&& 0xFF = 0x7E)⟩
theorem rxEsc (f : Nat) : Statement (.rxEsc f) := ⟨_, _, rfl, (by decide : (0x7D : Byte) &&& 0xFF = 0x7D)⟩
theorem rxDataEsc (f : Nat) (b : Byte) : Statement (.rxDataEsc f b) := ⟨_, _, rfl, BitVec.and_zero⟩
theorem rxData (f : Nat) (b : Byte) : Statement (.rxData f b) := ⟨_, _, rfl, BitVec.and_zero⟩
theorem txEsc7E : Statement .txEsc7E := ⟨_, _, rfl, (by decide : (0x7E : Byte) &&& 0xFF = 0x7E)⟩
theorem txEsc7D : Statement .txEsc7D := ⟨_, _, rfl, (by decide : (0x7D : Byte) &&& 0xFF = 0x7D)⟩
theorem txLit (x : Byte) : Statement (.txLit x) := ⟨_, _, rfl, BitVec.and_zero⟩
theorem txFlag : Statement .txFlag := ⟨_, _, rfl, (by decide : (0x7E : Byte) &&& 0xFF = 0x7E)⟩
theorem faAddbyte (f : Nat) (b : Byte) : Statement (.faAddbyte f b) := ⟨_, _, rfl, (by decide : (0x0 : Byte) &&& 0xF = 0x0)⟩
theorem faReset (f : Nat) : Statement (.faReset f) := ⟨_, _, rfl, (by decide : (0x1 : Byte) &&& 0xF = 0x1)⟩
theorem crc16 (s : List Byte) : Statement (.crc16 s) := ⟨_, _, rfl, (by decide : (0x2 : Byte) &&& 0xF = 0x2)⟩
theorem encode (p : List Byte) : Statement (.encode p) := ⟨_, _, rfl, (by decide : (0x3 : Byte) &&& 0xF = 0x3)⟩
theorem send (p : List Byte) : Statement (.send p) := ⟨_, _, rfl, (by decide : (0x4 : Byte) &&& 0xF = 0x4)⟩
theorem read (t : Nat) : Statement (.read t) := ⟨_, _, rfl, (by decide : (0x5 : Byte) &&& 0xF = 0x5)⟩
theorem start (a b : Option Nat) : Statement (.start a b) := ⟨_, _, rfl, (by decide : (0x6 : Byte) &&& 0xF = 0x6)⟩
theorem stop : Statement .stop := ⟨_, _, rfl, (by decide : (0x7 : Byte) &&& 0xF = 0x7)⟩

end Sys2Proof.Laws.TableWord
end

