-- ==== Sys2Proof/Tests/Slice0.lean ====
section
/-! SUPPORT. Tests of the model on values taken from spec/ (the examples of its rules, and the vectors of 95_test_vectors.md),
and for every statement with hypotheses a concrete case that meets them. -/

namespace Sys2Proof.Tests

open Sys2Proof.Machine

-- One theorem after the other: many at once ask for more threads than a small machine has memory for.
set_option Elab.async false

/-! ### Helpers -/

/-- The buffer that holds the bytes `p` from index 0 on. -/
def buffer (p : List Byte) : Memory := p.zipIdx.map (fun x => (x.2, x.1))

/-- A Frame in progress that holds the bytes `p`. -/
def frameOf (st : AsmState) (p : List Byte) : Frame :=
  { Frame.fresh with state := st, data := buffer p, len := p.length }

/-- The reset state with the standalone Frame 0 in progress. -/
def withFrame (st : AsmState) (p : List Byte) : State := State.reset.setFrame 0 (frameOf st p)

/-- The reset state with bytes waiting in the receive stream. -/
def withBytes (q : List Byte) : State := { State.reset with env := { State.reset.env with rxq := q } }

/-- The reset state with inputs. -/
def withInputs (is : List Input) : State := { State.reset with inputs := is }

/-- A reader session under way, with a frame half received. -/
def session (is : List Input) (q : List Byte) : State :=
  { withBytes q with
    lc := { State.reset.lc with
      running := true, workerAlive := true, frameCallback := some 1, errorCallback := some 2,
      currentFrame := some (frameOf .reading [0x41]) },
    inputs := is }

/-- The next state, if the outcome is one. -/
def nextOf : StepOutcome → Option State
  | .next s => some s
  | .fault _ => none
  | .refused _ => none

/-- The refusal, if the outcome is one. -/
def refusalOf : StepOutcome → Option Refusal
  | .next _ => none
  | .fault _ => none
  | .refused r => some r

/-- The Frame 0 and the newest result of the next state. -/
def frameAfter (o : StepOutcome) : Option (Frame × Option Result) :=
  (nextOf o).map (fun t => (t.frameAt 0, t.results.getLast?))

/-- The newest result of the next state, with what is left of the receive stream. -/
def readAfter (o : StepOutcome) : Option (Option Result × List Byte) :=
  (nextOf o).map (fun t => (t.results.getLast?, t.env.rxq))

/-! ### Well-formedness: each check refuses an ill-formed term -/

theorem test_wf_handles :
    (Instr.rxEndEsc (2 ^ 32)).wf = false ∧ (Instr.rxEndFin (2 ^ 32)).wf = false ∧
    (Instr.rxEndSkip (2 ^ 32)).wf = false ∧ (Instr.rxEsc (2 ^ 32)).wf = false ∧
    (Instr.rxDataEsc (2 ^ 32) 0).wf = false ∧ (Instr.rxData (2 ^ 32) 0).wf = false ∧
    (Instr.faAddbyte (2 ^ 32) 0).wf = false ∧ (Instr.faReset (2 ^ 32)).wf = false := by decide

theorem test_wf_symbol_bytes :
    (Instr.rxDataEsc 0 0x7E).wf = false ∧ (Instr.rxData 0 0x7E).wf = false ∧ (Instr.rxData 0 0x7D).wf = false ∧
    (Instr.txLit 0x7E).wf = false ∧ (Instr.txLit 0x7D).wf = false ∧ (Instr.rxDataEsc 0 0x7D).wf = true := by decide

theorem test_wf_durations_and_handlers :
    (Instr.read (2 ^ 32)).wf = false ∧ (Instr.start (some (2 ^ 32)) none).wf = false ∧
    (Instr.start none (some (2 ^ 32))).wf = false ∧ (Instr.start none none).wf = true := by decide

/-! ### Decoding: one command per constructor, written out from R94, R95, R99 and log entry 3 -/

theorem test_decode_receive_symbols :
    decode (fun _ => (.escaping, 0)) [0x7E, 1, 0, 0, 0, 0] = .ok (.rxEndEsc 0) ∧
    decode (fun _ => (.reading, 3)) [0x7E, 1, 0, 0, 0, 1] = .ok (.rxEndFin 1) ∧
    decode (fun _ => (.reading, 2)) [0x7E, 1, 0, 0, 1, 0] = .ok (.rxEndSkip 256) ∧
    decode (fun _ => (.reading, 3)) [0x7D, 1, 0, 1, 0, 0] = .ok (.rxEsc 65536) ∧
    decode (fun _ => (.escaping, 3)) [0x7D, 1, 1, 0, 0, 0] = .ok (.rxDataEsc 16777216 0x7D) ∧
    decode (fun _ => (.reading, 3)) [0xB9, 1, 0, 0, 0, 0] = .ok (.rxData 0 0xB9) := by decide

theorem test_decode_transmit_symbols :
    decode freshView [0x7E, 2] = .ok .txEsc7E ∧ decode freshView [0x7D, 2] = .ok .txEsc7D ∧
    decode freshView [0xFF, 2] = .ok (.txLit 0xFF) ∧ decode freshView [0x7E, 3] = .ok .txFlag := by decide

theorem test_decode_operations :
    decode freshView [0x0, 0, 0, 0, 0, 0, 0x41] = .ok (.faAddbyte 0 0x41) ∧
    decode freshView [0x1, 0, 0, 0, 0, 3] = .ok (.faReset 3) ∧
    decode freshView [0x2, 0, 1, 2] = .ok (.crc16 [1, 2]) ∧ decode freshView [0x3, 0, 0x7E] = .ok (.encode [0x7E]) ∧
    decode freshView [0x4, 0] = .ok (.send []) ∧ decode freshView [0x5, 0, 0, 0, 0x10, 0] = .ok (.read 4096) ∧
    decode freshView [0x6, 0, 0, 1, 0, 0, 0, 2] = .ok (.start none (some 2)) ∧ decode freshView [0x7, 0] = .ok .stop := by
  decide

theorem test_decode_refusals :
    decode freshView [] = .error .badLength ∧ decode freshView [0x41, 4] = .error .unknownFormat ∧
    decode freshView [0x8, 0] = .error .reservedOp ∧ decode freshView [0xF, 0] = .error .reservedOp ∧
    decode freshView [0x10, 0] = .error .wideOp ∧ decode freshView [0x7, 0, 0] = .error .badLength ∧
    decode freshView [0x6, 0, 2, 0] = .error .badPresence ∧ decode freshView [0x41, 3] = .error .notAFlag := by decide

/-- The table's words reach the decoder and the step (log entry 4). -/
theorem test_table_words :
    decodeTableWord 4 7 = some .stop ∧ decodeTableWord 8 0x7E = some (.rxEndSkip 0) ∧ decodeTableWord 4 9 = none ∧
    nextOf (step (State.reset.withFetchWord 4 7)) = nextOf (exec .stop State.reset) := by decide

/-! ### The receive symbols: the examples of R122 to R131 -/

/-- R122's example. -/
theorem test_rxEndEsc :
    frameAfter (exec (.rxEndEsc 0) (withFrame .escaping [0x41])) =
      some ({ frameOf .escaping [0x41] with finished := true, error := true, errCode := .eFraming },
        some (.terminal true)) := by decide

/-- R131's first example. -/
theorem test_rxEndFin_match :
    frameAfter (exec (.rxEndFin 0) (withFrame .reading [0x41, 0xB9, 0x15])) =
      some ({ frameOf .reading [0x41] with finished := true, crc := 0xB915 }, some (.terminal true)) := by decide +kernel

/-- R131's second example, and of L5 the row: END on a full buffer is a verification (R136). -/
theorem test_rxEndFin_mismatch :
    frameAfter (exec (.rxEndFin 0) (withFrame .reading [0x41, 0xB9, 0x14])) =
      some ({ frameOf .reading [0x41, 0xB9, 0x14] with finished := true, error := true, errCode := .eCrc, crc := 0xB914 },
        some (.terminal true)) ∧
    classifyRx .reading 1024 0x7E = .endFin := by decide +kernel

/-- R124's second example. -/
theorem test_rxEndSkip :
    frameAfter (exec (.rxEndSkip 0) (withFrame .reading [0x41, 0x42])) =
      some (frameOf .reading [0x41, 0x42], some (.terminal false)) := by decide

/-- R125's example. -/
theorem test_rxEsc :
    frameAfter (exec (.rxEsc 0) (withFrame .reading [0x41])) =
      some (frameOf .escaping [0x41], some (.terminal false)) := by decide

/-- R127's first example and R128's. -/
theorem test_rxDataEsc :
    frameAfter (exec (.rxDataEsc 0 0x5E) (withFrame .escaping [0x01, 0x02])) =
      some (frameOf .reading [0x01, 0x02, 0x7E], some (.terminal false)) ∧
    frameAfter (exec (.rxDataEsc 0 0x7D) (withFrame .escaping [])) =
      some (frameOf .reading [0x5D], some (.terminal false)) := by decide

/-- L7: the mode returns to Reading before the length test. -/
theorem test_rxDataEsc_full :
    (frameAfter (exec (.rxDataEsc 0 0x11) (withFrame .escaping (List.replicate 1024 0x55)))).map
        (fun r => (r.1.state, r.1.len, r.1.errCode, r.2)) =
      some (.reading, 1024, .eTooBig, some (.terminal true)) := by decide +kernel

/-- R126's example. -/
theorem test_rxData :
    frameAfter (exec (.rxData 0 0xB9) (withFrame .reading [0x41])) =
      some (frameOf .reading [0x41, 0xB9], some (.terminal false)) := by decide

/-- R130's example: the 1025th byte is not stored. -/
theorem test_rxData_full :
    frameAfter (exec (.rxData 0 0x55) (withFrame .reading (List.replicate 1024 0x55))) =
      some ({ frameOf .reading (List.replicate 1024 0x55) with finished := true, error := true, errCode := .eTooBig },
        some (.terminal true)) := by decide +kernel

/-! ### The transmit symbols (R95) -/

theorem test_transmit_symbols :
    (nextOf (exec .txEsc7E State.reset)).map State.results = some [.bytes [0x7D, 0x5E]] ∧
    (nextOf (exec .txEsc7D State.reset)).map State.results = some [.bytes [0x7D, 0x5D]] ∧
    (nextOf (exec (.txLit 0x5E) State.reset)).map State.results = some [.bytes [0x5E]] ∧
    (nextOf (exec .txFlag State.reset)).map State.results = some [.bytes [0x7E]] := by decide

/-! ### The operations -/

/-- R120's example. -/
theorem test_faAddbyte :
    frameAfter (exec (.faAddbyte 0 0x41) State.reset) =
      some (frameOf .reading [0x41], some (.terminal false)) := by decide

/-- R121's example. -/
theorem test_faAddbyte_finished :
    refusalOf (exec (.faAddbyte 0 0x41) (State.reset.setFrame 0 { frameOf .reading [0x41] with finished := true })) =
      some .frameFinished := by decide

/-- R133's example. -/
theorem test_faReset :
    frameAfter (exec (.faReset 0)
        (State.reset.setFrame 0
          { frameOf .escaping [0x41] with finished := true, error := true, errCode := .eFraming })) =
      some (Frame.fresh, none) := by decide

/-- Section 2.1: R150's example and R157's check value, and that the seed is not 0 (31C3 is the value under seed 0). -/
theorem test_crc16 :
    crc16 [0x01] = 0xF1D1 ∧ crc16 [0x31, 0x32, 0x33, 0x34, 0x35, 0x36, 0x37, 0x38, 0x39] = 0x29B1 ∧
    crc16 [0x7E] = 0x7EA9 ∧ crc16 [0xF7] = 0x7E08 ∧ crc16 [0x48, 0x65, 0x6C, 0x6C, 0x6F] = 0xDADA := by decide +kernel

/-- R152's trace of the first two shifts. -/
theorem test_crc_trace : crcLoad 0xFFFF 0x01 = 0xFEFF ∧ crcShift 0xFEFF = 0xEDDF ∧ crcShift 0x1E1F = 0x3C3E := by decide

/-- T3, T11 and T15. -/
theorem test_encode :
    wireEncode [0x01, 0x02, 0x7E, 0x03] = [0x7E, 0x01, 0x02, 0x7D, 0x5E, 0x03, 0x87, 0x21, 0x7E] ∧
    wireEncode [0xEB, 0x7D] = [0x7E, 0xEB, 0x7D, 0x5D, 0x7D, 0x5E, 0x7D, 0x5D, 0x7E] ∧
    wireEncode [] = [0x7E, 0xFF, 0xFF, 0x7E] := by decide +kernel

/-- Streams S7, S15, S17 and the flip 7E 0C 20 7D 7E of section 2.4. -/
theorem test_decode_streams :
    wireDecode [0x7E, 0x7D, 0x7D, 0x6A, 0xA8, 0x7E] = .ok (.ok [0x5D]) ∧
    wireDecode [0x7E, 0x41, 0xB9, 0x14, 0x7E] = .ok (.err .eCrc) ∧
    wireDecode [0x7E, 0xFF, 0xFF, 0x7E] = .ok .pending ∧
    wireDecode [0x7E, 0x0C, 0x20, 0x7D, 0x7E] = .ok (.err .eFraming) := by decide +kernel

/-- S12 and R257's example; and stale bytes whose checksum is the seed, with which the next frame passes (log entry 27). -/
theorem test_stale_bytes :
    wireDecode [0x41, 0x42, 0x7E, 0x7E, 0x41, 0xB9, 0x15, 0x7E] = .ok (.err .eCrc) ∧
    wireDecode [0x7B, 0x30, 0x7E, 0x7E, 0x41, 0xB9, 0x15, 0x7E] = .ok (.ok [0x7B, 0x30, 0x41]) := by decide +kernel

/-- K1. -/
theorem test_send :
    (nextOf (exec (.send [0x41]) State.reset)).map (fun t => (t.env.txlog, t.results, t.lc)) =
      some ([0x7E, 0x41, 0xB9, 0x15, 0x7E], [.sent 5], State.reset.lc) := by decide +kernel

/-- K2, with the first READ of P2: the bytes after the frame stay. -/
theorem test_read_success :
    readAfter (exec (.read 1) (withBytes [0x7E, 0x41, 0xB9, 0x15, 0x7E, 0x7E, 0x01])) =
      some (some (.payload [0x41]), [0x7E, 0x01]) := by decide +kernel

/-- K10 and the first READ of P3. -/
theorem test_read_errors :
    readAfter (exec (.read 1)
        { State.reset with env := { rxq := [0x7E, 0x41, 0xB9], rxClosed := true, closeAfter := none, txlog := [] } }) =
      some (some (.status .sTransport), [0x7E, 0x41, 0xB9]) ∧
    readAfter (exec (.read 1) (withBytes [0x7E, 0x41, 0x7D, 0x7E, 0x7E])) =
      some (some (.status .eFraming), [0x7E]) := by decide +kernel

/-- K5 and K6. -/
theorem test_start :
    (nextOf (exec (.start (some 1) (some 2)) State.reset)).map (fun t => (t.lc, t.results)) =
      some ({ State.reset.lc with
        running := true, workerAlive := true, frameCallback := some 1, errorCallback := some 2 }, [.status .ok]) ∧
    (nextOf (exec (.start (some 3) (some 4)) (session [] []))).map (fun t => (t.lc, t.results)) =
      some ((session [] []).lc, [.status .sReaderRunning]) := by decide

/-- K8, and the first half of K7. -/
theorem test_stop :
    (nextOf (exec .stop State.reset)).map (fun t => (t.lc, t.results)) = some (State.reset.lc, [.status .ok]) ∧
    (nextOf (exec .stop (session [] []))).map (fun t => (t.lc.running, t.lc.workerAlive, t.foreground, t.results)) =
      some (false, true, .stopping, []) := by decide

/-- Step 6 of P7: the worker reports a framing error to the error handler and leaves the rest of the stream. -/
theorem test_worker_error :
    (nextOf (step { session [.worker] [0x7E, 0x41, 0x7D, 0x7E, 0x7E, 0x01] with
        lc := { (session [] []).lc with currentFrame := none } })).map (fun t => (t.events, t.env.rxq)) =
      some ([.error 2 .eFraming], [0x7E, 0x01]) := by decide +kernel

/-- Step 15 of P7: with no error handler the error is dropped and the frame consumed. -/
theorem test_worker_absent_handler :
    (nextOf (step { session [.worker] [0x7E, 0x7D, 0x7E] with
        lc := { (session [] []).lc with currentFrame := none, errorCallback := none } })).map
        (fun t => (t.events, t.env.rxq, t.lc.currentFrame, t.lc.lastFrame.map Frame.errCode)) =
      some ([], [], none, some .eFraming) := by decide +kernel

/-! ### Witnesses: concrete cases that meet the hypotheses of the statements -/

theorem witness_DecodeOfEncodeIsTheInstruction :
    (Instr.rxEndFin 4294967295).wf = true ∧ (Instr.rxEndFin 4294967295).rowCondition (fun _ => (.reading, 3)) ∧
    (Instr.rxData 0 0x7F).wf = true ∧ (Instr.rxData 0 0x7F).rowCondition freshView ∧
    (Instr.start (some 4294967295) none).wf = true := by
  exact ⟨by decide, ⟨rfl, by decide⟩, by decide, rfl, by decide⟩

theorem witness_EncodeOfDecodeIsTheCommand :
    decode (fun _ => (.reading, 3)) [0x7E, 1, 0xFF, 0xFF, 0xFF, 0xFF] = .ok (.rxEndFin 4294967295) := by decide

theorem witness_ReservedOperationCodesAreRefused :
    8 ≤ (0x8 : Byte).toNat ∧ (0xF : Byte).toNat ≤ 15 ∧
    (withInputs [.op [0x8, 0, 0x41], .worker]).foreground = .idle ∧
    (withInputs [.op [0x8, 0, 0x41], .worker]).inputs = .op (0x8 :: 0 :: [0x41]) :: [.worker] := by decide

theorem witness_StepRunsTheDecodedInstruction :
    (withInputs [.op [0x7, 0], .close]).foreground = .idle ∧
    (withInputs [.op [0x7, 0], .close]).inputs = .op [0x7, 0] :: [.close] ∧
    decode (withInputs [.op [0x7, 0], .close]).view [0x7, 0] = .ok .stop ∧
    decode (withInputs [.op [0x7], .close]).view [0x7] = .error .badLength := by decide

theorem witness_EnvironmentMovesTheReceiveStream :
    (withInputs [.append [0x7E]]).inputs = .append [0x7E] :: [] ∧ (withInputs [.append [0x7E]]).env.rxClosed = false ∧
    ({ withInputs [.append [0x7E]] with env := State.reset.env.close }).env.rxClosed = true ∧
    (withInputs [.close]).inputs = .close :: [] ∧ (withInputs [.closeAfter 0]).inputs = .closeAfter 0 :: [] := by decide

theorem witness_EndInEscapingAbortsWithFraming :
    ((withFrame .escaping []).frameAt 0).finished = false ∧ ((withFrame .escaping []).frameAt 0).state = .escaping := by
  decide

theorem witness_EndInReadingVerifiesTheChecksum :
    ((withFrame .reading [0x41, 0xB9, 0x15]).frameAt 0).finished = false ∧
    ((withFrame .reading [0x41, 0xB9, 0x15]).frameAt 0).state = .reading ∧
    ((withFrame .reading [0x41, 0xB9, 0x15]).frameAt 0).Holds ([0x41] ++ [0xB9, 0x15]) ∧
    crc16 [0x41] = (0xB9 : Byte) ++ (0x15 : Byte) ∧
    ((withFrame .reading [0x41, 0xB9, 0x14]).frameAt 0).Holds ([0x41] ++ [0xB9, 0x14]) ∧
    crc16 [0x41] ≠ (0xB9 : Byte) ++ (0x14 : Byte) := by
  exact ⟨by decide, by decide, ⟨rfl, rfl⟩, by decide +kernel, ⟨rfl, rfl⟩, by decide +kernel⟩

theorem witness_EndWithFewBytesWritesNothing :
    bankWf (withFrame .reading [0x41, 0x42]).frames ∧ ((withFrame .reading [0x41, 0x42]).frameAt 0).finished = false ∧
    ((withFrame .reading [0x41, 0x42]).frameAt 0).state = .reading ∧
    ((withFrame .reading [0x41, 0x42]).frameAt 0).len < 3 := by decide

theorem witness_EscapeByteSwitchesTheModeOnly :
    ((withFrame .reading (List.replicate 1024 0x55)).frameAt 0).finished = false ∧
    ((withFrame .reading (List.replicate 1024 0x55)).frameAt 0).state = .reading ∧
    ((withFrame .reading (List.replicate 1024 0x55)).frameAt 0).len = 1024 := by decide +kernel

theorem witness_DataByteIsAppendedOrTooBig :
    ((withFrame .reading (List.replicate 1023 0x55)).frameAt 0).finished = false ∧
    ((withFrame .reading (List.replicate 1023 0x55)).frameAt 0).state = .reading ∧
    ((withFrame .reading (List.replicate 1023 0x55)).frameAt 0).len < 1024 ∧
    ((withFrame .reading (List.replicate 1024 0x55)).frameAt 0).len = 1024 ∧ (0x7F : Byte) ≠ 0x7E ∧
    (0x7F : Byte) ≠ 0x7D := by decide +kernel

theorem witness_EscapedByteIsUnmaskedAndAppended :
    ((withFrame .escaping (List.replicate 1023 0x55)).frameAt 0).finished = false ∧
    ((withFrame .escaping (List.replicate 1023 0x55)).frameAt 0).state = .escaping ∧
    ((withFrame .escaping (List.replicate 1023 0x55)).frameAt 0).len < 1024 ∧
    ((withFrame .escaping (List.replicate 1024 0x55)).frameAt 0).len = 1024 ∧ (0x7D : Byte) ≠ 0x7E := by decide +kernel

/-- The eight rows, each at a boundary of its length. -/
theorem witness_AddByteFollowsTheTransitionTable :
    ((withFrame .reading [0x41, 0x42]).frameAt 0).finished = false ∧
    ((withFrame .reading [0x41, 0x42]).frameAt 0).len < 3 ∧
    3 ≤ ((withFrame .reading [0x41, 0xB9, 0x15]).frameAt 0).len ∧
    ((withFrame .reading [0x41, 0xB9, 0x15]).frameAt 0).Holds ([0x41] ++ [0xB9, 0x15]) ∧
    ((withFrame .reading (List.replicate 1023 0x55)).frameAt 0).len < 1024 ∧
    ((withFrame .reading (List.replicate 1024 0x55)).frameAt 0).len = 1024 ∧
    ((withFrame .escaping []).frameAt 0).state = .escaping ∧
    ((withFrame .escaping (List.replicate 1023 0x55)).frameAt 0).len < 1024 ∧
    ((withFrame .escaping (List.replicate 1024 0x55)).frameAt 0).len = 1024 := by
  exact ⟨by decide, by decide, by decide, ⟨rfl, rfl⟩, by decide +kernel, by decide +kernel, by decide,
    by decide +kernel, by decide +kernel⟩

/-- The reset state with the standalone Frame 0 finished in an error. -/
def withErredFrame (is : List Input) : State :=
  { State.reset.setFrame 0 (Frame.fresh.failFlags .eFraming) with inputs := is }

/-- FA_ADDBYTE and a symbol, whose row is and is not the one the Frame selects. -/
theorem witness_AddByteOnFinishedFrameIsRefused :
    ((withErredFrame []).frameAt 0).finished = true ∧ FeedsFrame (.faAddbyte 0 0x41) 0 ∧ FeedsFrame (.rxEsc 0) 0 ∧
    refusalOf (exec (.rxEndSkip 0) (withErredFrame [])) = some .frameFinished ∧
    refusalOf (exec (.rxEndEsc 0) (withErredFrame [])) = some .frameFinished :=
  ⟨by decide, .inr (.inr (.inr (.inr (.inr (.inr ⟨_, rfl⟩))))), .inr (.inr (.inr (.inl rfl))), by decide, by decide⟩

/-- A byte that terminates the Frame and one that does not; the three bytes of a whole frame make `len` decrease. -/
theorem witness_AddByteTerminatesExactlyWhenItFinishes :
    ((frameOf .reading [0x41, 0xB9, 0x15]).addByte 0x7E).toOption.map (fun r => (r.1.len, r.1.finished, r.2)) =
      some (1, true, true) ∧
    (Frame.fresh.addByte 0x41).toOption.map (fun r => (r.1.len, r.1.finished, r.2)) = some (1, false, false) := by
  decide +kernel

theorem witness_OneByteReportsAtMostOneError :
    (frameOf .escaping []).errCode = .ok ∧
    ((frameOf .escaping []).addByte 0x7E).toOption.map (fun r => r.1.errCode) = some .eFraming ∧
    ((frameOf .reading [0x41, 0xB9, 0x14]).addByte 0x7E).toOption.map (fun r => r.1.errCode) = some .eCrc ∧
    (Frame.fresh.addByte 0x7D).toOption.map (fun r => r.1.errCode) = some .ok ∧
    ((frameOf .escaping (List.replicate 1024 0x55)).addByte 0x7D).toOption.map (fun r => r.1.errCode) =
      some .eTooBig := by decide +kernel

theorem witness_FrameBufferIsWrittenOnlyByAppending :
    ((frameOf .reading [0x41, 0xB9]).addByte 0x15).toOption.map (fun r => r.1.data) = some (buffer [0x41, 0xB9, 0x15]) ∧
    ((frameOf .reading [0x41, 0xB9, 0x15]).addByte 0x7E).toOption.map (fun r => r.1.data) = some (buffer [0x41]) ∧
    (nextOf (exec (.faReset 0) (withFrame .reading [0x41]))).map State.frames = some [] := by decide +kernel

theorem witness_FrameOperationsTouchOneFrameOnly :
    FeedsFrame (.rxData 0 0x41) 0 ∧
    (nextOf (exec (.rxData 0 0x41) ((withFrame .reading []).setFrame 7 (frameOf .escaping [0x42])))).isSome = true ∧
    (nextOf (exec (.faReset 0) (withFrame .reading [0x41]))).isSome = true :=
  ⟨.inr (.inr (.inr (.inr (.inr (.inl ⟨_, rfl⟩))))), by decide, by decide⟩

/-- The flip of bit 0 of the last checksum byte of the frame of [0x41]. -/
theorem witness_Crc16Properties :
    ([0x41] : List Byte) ++ crcBytes (crc16 [0x41]) = ([0x41, 0xB9] : List Byte) ++ [0x15] ++ [] ∧
    ([0x41, 0xB9] : List Byte) ++ [0x15 ^^^ ((1 : Byte) <<< 0)] ++ [] = ([0x41] : List Byte) ++ [0xB9, 0x14] := by
  decide +kernel

theorem witness_TransmitSymbolsMapBytes : (0x7F : Byte) ≠ 0x7E ∧ (0x7F : Byte) ≠ 0x7D := by decide

theorem witness_EncodeIsInjective : wireEncode [0x41] = wireEncode [0x41] ∧ wireEncode [0x41] ≠ wireEncode [0x42] := by
  decide +kernel

theorem witness_EncodedPayloadDecodesToItself :
    1 ≤ ([0x41] : List Byte).length ∧ ([0x41] : List Byte).length ≤ 1022 ∧
    1 ≤ (List.replicate 1022 (0x7E : Byte)).length ∧ (List.replicate 1022 (0x7E : Byte)).length ≤ 1022 := by decide +kernel

/-- Section 2.4: idx 1 of the frame 7E 0C 20 7C 7E, bit 1. -/
theorem witness_StructureKeepingFlipGivesChecksumError :
    wireEncode [0x0C] = [0x7E] ++ ([] ++ [(0x0C : Byte)] ++ [0x20, 0x7C]) ++ [0x7E] ∧ (0x0C : Byte) ≠ 0x7E ∧
    (0x0C : Byte) ≠ 0x7D ∧ (0x0C : Byte) ^^^ ((1 : Byte) <<< 1) ≠ 0x7E ∧ (0x0C : Byte) ^^^ ((1 : Byte) <<< 1) ≠ 0x7D := by
  decide +kernel

theorem witness_SendAppendsOneWholeFrame : (session [] []).foreground = .idle ∧ State.reset.foreground = .idle := by decide

/-- The four ways a poll iteration ends; EOS on a closed stream, on a plan that is due, and on one that falls due after one
of two bytes; and a plan that does not fall due, counted down (R74, R187). -/
theorem witness_PollFeedsExactlyTheBytesItConsumes :
    (drainOnce State.reset.lc State.reset.env).toOption.map (fun r => r.2.2) = some .noData ∧
    (drainOnce State.reset.lc (withBytes [0x41]).env).toOption.map (fun r => r.2.2) = some .drained ∧
    ((drainOnce State.reset.lc (withBytes [0x7D, 0x7E, 0x41]).env).toOption.map (fun r => r.2.1.rxq)) = some [0x41] ∧
    (drainOnce State.reset.lc { (withBytes [0x41]).env with rxClosed := true }).toOption.map
      (fun r => (r.2.1.rxq, r.2.2)) = some ([0x41], .eos) ∧
    (drainOnce State.reset.lc { (withBytes [0x41]).env with closeAfter := some 0 }).toOption.map
      (fun r => (r.2.1.rxq, r.2.2)) = some ([0x41], .eos) ∧
    (drainOnce State.reset.lc { (withBytes [0x41, 0x42]).env with closeAfter := some 1 }).toOption.map
      (fun r => (r.2.1.rxq, r.2.1.rxClosed, r.2.2)) = some ([0x42], true, .eos) ∧
    (drainOnce State.reset.lc { (withBytes [0x41]).env with closeAfter := some 1 }).toOption.map
      (fun r => (r.2.1.closeAfter, r.2.1.rxClosed, r.2.2)) = some (some 0, false, .drained) := by decide

theorem witness_SplitFrameIsDeliveredWhole :
    wireEncode [0x01, 0x02, 0x7E, 0x03] = [0x7E, 0x01, 0x02, 0x7D] ++ [0x5E, 0x03, 0x87, 0x21, 0x7E] ∧
    State.reset.lc.currentFrame = none ∧ (withBytes [0x7E, 0x01, 0x02, 0x7D]).env.Open := by
  exact ⟨by decide +kernel, rfl, rfl, rfl⟩

theorem witness_ExpiredReadTimesOutAndChangesNothing :
    (withBytes [0x7E]).MayRead ∧ { withBytes [0x7E] with clock := [true] }.MayRead ∧
    { withBytes [0x7E] with clock := [true] }.clock.headD false = true := ⟨⟨rfl, rfl, rfl⟩, ⟨rfl, rfl, rfl⟩, rfl⟩

/-- The four results of a poll iteration; the third and the fourth end in a success and in an error. -/
theorem witness_ReadActsOnThePollResult :
    (withBytes [0x41]).MayRead ∧ (withBytes [0x41]).InTime 1 ∧
    (drainOnce { (withBytes [0x41]).lc with deadline := 1 } (withBytes [0x41]).env).toOption.map (fun r => r.2.2) =
      some .drained ∧
    (drainOnce { State.reset.lc with deadline := 1 } { (withBytes [0x41]).env with rxClosed := true }).toOption.map
      (fun r => r.2.2) = some .eos ∧
    ((drainOnce { State.reset.lc with deadline := 1 } (withBytes [0x7E, 0x41, 0xB9, 0x15, 0x7E]).env).toOption.bind
      (fun r => r.1.lastFrame)).map (fun F => (F.finished, F.error, F.data)) = some (true, false, buffer [0x41]) ∧
    ((drainOnce { State.reset.lc with deadline := 1 } (withBytes [0x7D, 0x7E]).env).toOption.bind
      (fun r => r.1.lastFrame)).map (fun F => (F.finished, F.error)) = some (true, true) := by
  exact ⟨⟨rfl, rfl, rfl⟩, ⟨by decide, rfl⟩, by decide, by decide, by decide +kernel, by decide⟩

theorem witness_StepInsideReadRunsOneIteration :
    (State.reset.beginRead 1).foreground = .reading ∧ (State.reset.beginRead 1).inputs = [] ∧
    ((withInputs [.foreground]).beginRead 1).inputs = .foreground :: [] ∧
    ((withInputs [.op [0x7, 0]]).beginRead 1).inputs = .op [0x7, 0] :: [] ∧
    ({ State.reset.beginRead 1 with clock := [true] }).expired.1 = true ∧ (State.reset.beginRead 0).expired.1 = true ∧
    (State.reset.beginRead 1).expired.1 = false ∧
    (drainOnce (State.reset.beginRead 1).lc (State.reset.beginRead 1).env).toOption.isSome = true := by decide

/-- A Frame that holds one byte meets the invariant. -/
theorem frameOf_inv (st : AsmState) (b : Byte) : (frameOf st [b]).Inv where
  data_wf := List.pairwise_singleton _ _
  data_dense i := by
    show (lookupKey [(0, b)] i).isSome = true ↔ i < 1
    simp only [lookupKey]
    split <;> simp <;> omega
  len_le := by show 1 ≤ 1024; omega
  error_finished := by simp [frameOf, Frame.fresh]
  code_error := by simp [frameOf, Frame.fresh]
  code_kind := .inl rfl
  success := by simp [frameOf, Frame.fresh]

/-- A state in the Background mode, with a frame half received, meets the invariant. -/
theorem session_inv (is : List Input) (q : List Byte) : (session is q).Inv where
  bank := ⟨List.Pairwise.nil, by simp [session, withBytes, State.reset]⟩
  frames := by simp [session, withBytes, State.reset]
  lc :=
    { current := fun F hF => by cases hF; exact ⟨frameOf_inv _ _, rfl⟩
      last := fun F hF => by cases hF
      running_alive := fun _ => rfl }
  exiting := fun _ h => by cases h
  stopping := fun h => by cases h
  reading := fun h => by cases h

/-- A state in the Idle mode with a frame half received, from which a READ may be issued. -/
def partialState (is : List Input) (q : List Byte) : State :=
  { withBytes q with lc := { State.reset.lc with currentFrame := some (frameOf .reading [0x41]) }, inputs := is }

theorem partialState_inv (is : List Input) (q : List Byte) : (partialState is q).Inv where
  bank := ⟨List.Pairwise.nil, by simp [partialState, withBytes, State.reset]⟩
  frames := by simp [partialState, withBytes, State.reset]
  lc :=
    { current := fun F hF => by cases hF; exact ⟨frameOf_inv _ _, rfl⟩
      last := fun F hF => by cases hF
      running_alive := fun h => by cases h }
  exiting := fun h => by cases h
  stopping := fun h => by cases h
  reading := fun h => by cases h

theorem witness_ReadCompletesFromTheInvariant :
    (partialState [] [0xB9, 0x15, 0x7E]).Inv ∧ (partialState [] [0xB9, 0x15, 0x7E]).MayRead :=
  ⟨partialState_inv _ _, rfl, rfl, rfl⟩

theorem witness_ReadDeliversTheWaitingFrame :
    (withBytes (wireEncode [0x41] ++ [0x7E])).MayRead ∧ (withBytes (wireEncode [0x41] ++ [0x7E])).InTime 1 ∧
    (withBytes (wireEncode [0x41] ++ [0x7E])).lc.currentFrame = none ∧
    (withBytes (wireEncode [0x41] ++ [0x7E])).env.Open ∧
    (withBytes (wireEncode [0x41] ++ [0x7E])).env.rxq = wireEncode [0x41] ++ [0x7E] :=
  ⟨⟨rfl, rfl, rfl⟩, ⟨by decide, rfl⟩, rfl, ⟨rfl, rfl⟩, rfl⟩

/-- Two frames in one burst, and a clock that is late only at its third answer. -/
def burst : State := { withBytes (wireEncode [0x41] ++ wireEncode [0x01, 0x02, 0x03]) with clock := [false, false, true] }

theorem witness_TwoReadsDeliverTwoFramesInOrder :
    burst.MayRead ∧ burst.InTime 1 ∧ burst.clock.tail.headD false = false ∧ burst.lc.currentFrame = none ∧
    burst.env.Open ∧ burst.env.rxq = wireEncode [0x41] ++ wireEncode [0x01, 0x02, 0x03] :=
  ⟨⟨rfl, rfl, rfl⟩, ⟨by decide, rfl⟩, rfl, rfl, ⟨rfl, rfl⟩, rfl⟩

theorem witness_ReadWhileTheReaderRunsIsRefused :
    (session [] []).foreground = .idle ∧ (session [] []).lc.running = true := by decide

theorem witness_ReadTouchesOnlyItsOwnState : (nextOf (exec (.read 1) (partialState [] [0xB9]))).isSome = true := by decide

theorem witness_HostOperationsAreRefusedWhileBusy :
    ({ State.reset with foreground := .reading }).foreground ≠ .idle ∧
    ({ session [] [] with foreground := .stopping }).foreground ≠ .idle := by decide

theorem witness_StartBeginsOneSession :
    State.reset.foreground = .idle ∧ State.reset.lc.running = false ∧ (session [] []).foreground = .idle ∧
    (session [] []).lc.running = true := by decide

theorem witness_StopClearsTheFlag :
    State.reset.foreground = .idle ∧ State.reset.lc.workerAlive = false ∧ (session [] []).foreground = .idle ∧
    (session [] []).lc.workerAlive = true := by decide

/-- A session that STOP is ending. -/
def stoppingSession (is : List Input) : State :=
  { session is [0x7E] with lc := { (session [] []).lc with running := false }, foreground := .stopping }

/-- It meets the invariant. -/
theorem stoppingSession_inv (is : List Input) : (stoppingSession is).Inv where
  bank := (session_inv is []).bank
  frames := (session_inv is []).frames
  lc :=
    { current := (session_inv [] []).lc.current
      last := (session_inv [] []).lc.last
      running_alive := fun _ => rfl }
  exiting := fun _ _ => rfl
  stopping := fun _ => rfl
  reading := fun h => by cases h

/-- STOP's wait after the worker's exit. -/
def exitedSession (is : List Input) : State := (stoppingSession is).workerExit

theorem exitedSession_inv (is : List Input) : (exitedSession is).Inv where
  bank := (session_inv is []).bank
  frames := (session_inv is []).frames
  lc :=
    { current := (session_inv [] []).lc.current
      last := (session_inv [] []).lc.last
      running_alive := fun h => by cases h }
  exiting := fun _ _ => rfl
  stopping := fun _ => rfl
  reading := fun h => by cases h

theorem witness_StopReturnsOnceTheWorkerHasExited :
    (session [] [0x7E]).foreground = .idle ∧ (session [] [0x7E]).lc.workerAlive = true ∧ (session [] [0x7E]).inputs = [] ∧
    (stoppingSession [.foreground]).foreground = .stopping ∧ (stoppingSession [.foreground]).inputs = .foreground :: [] ∧
    (stoppingSession [.foreground]).lc.workerAlive = true ∧ (exitedSession [.foreground]).foreground = .stopping ∧
    (exitedSession [.foreground]).lc.workerAlive = false := by decide

/-- R268: the results and the handler calls are one sequence; a SEND's result stands before the frame event that follows. -/
theorem test_outputs_keep_their_order :
    ((nextOf (step (session [.op [0x4, 0], .worker] [0xB9, 0x15, 0x7E]))).bind (fun t => nextOf (step t))).map State.outputs =
      some [.result (.sent 4), .event (.frame 1 [0x41])] := by decide +kernel

theorem witness_WorkerExitsWhenTheFlagIsCleared :
    (stoppingSession [.worker]).inputs = .worker :: [] ∧ (stoppingSession [.worker]).lc.workerAlive = true ∧
    (stoppingSession [.worker]).lc.running = false ∧
    (nextOf (step (stoppingSession [.worker]))).map (fun t => t.lc.workerAlive) = some false := by decide

theorem witness_WorkerActsOnThePollResult :
    (session [.worker] [0xB9]).inputs = .worker :: [] ∧ (session [.worker] [0xB9]).MayPoll ∧
    (drainOnce (session [] []).lc (withBytes [0xB9]).env).toOption.map (fun r => r.2.2) = some .drained ∧
    ((drainOnce (session [] []).lc (withBytes [0xB9, 0x15, 0x7E]).env).toOption.bind
      (fun r => r.1.lastFrame)).map (fun F => (F.finished, F.error, F.data)) = some (true, false, buffer [0x41]) ∧
    ((drainOnce (session [] []).lc (withBytes [0x7D, 0x7E]).env).toOption.bind
      (fun r => r.1.lastFrame)).map (fun F => (F.finished, F.error)) = some (true, true) ∧
    (session [] []).lc.frameCallback = some 1 ∧ (session [] []).lc.errorCallback = some 2 ∧
    State.reset.lc.frameCallback = none ∧ State.reset.lc.errorCallback = none := by
  exact ⟨rfl, ⟨rfl, rfl⟩, by decide, by decide +kernel, by decide, rfl, rfl, rfl, rfl⟩

/-- A session at a frame boundary, with a whole frame waiting. -/
def waitingSession : State :=
  { session [.worker] (wireEncode [0x41] ++ [0x7E]) with lc := { (session [] []).lc with currentFrame := none } }

theorem witness_WorkerDeliversTheWaitingFrame :
    waitingSession.inputs = .worker :: [] ∧ waitingSession.MayPoll ∧ waitingSession.lc.frameCallback = some 1 ∧
    waitingSession.lc.currentFrame = none ∧ waitingSession.env.Open ∧
    waitingSession.env.rxq = wireEncode [0x41] ++ [0x7E] := ⟨rfl, ⟨rfl, rfl⟩, rfl, rfl, ⟨rfl, rfl⟩, rfl⟩

theorem witness_HandlersRunOnlyInTheWorker :
    (nextOf (exec (.send [0x41]) State.reset)).isSome = true ∧ State.reset.lc.workerAlive = false ∧
    (nextOf (step State.reset)).isSome = true := by decide +kernel

/-- A result with its code from each of the four host operations, from a READ in its loop, from a STOP that waits; and an
error event. -/
theorem witness_EachOperationReturnsOnlyItsCodes :
    (nextOf (exec (.send []) State.reset)).isSome = true ∧ (nextOf (exec (.read 0) State.reset)).isSome = true ∧
    (nextOf (exec (.start none none) State.reset)).isSome = true ∧ (nextOf (exec .stop State.reset)).isSome = true ∧
    (nextOf (step { State.reset.beginRead 1 with clock := [true] })).map State.outputs =
      some [.result (.status .sTimeout)] ∧
    (nextOf (step (exitedSession []))).map State.outputs = some [.result (.status .ok)] ∧
    (nextOf (step (session [.worker] [0x7D, 0x7E]))).map State.outputs = some [.event (.error 2 .eFraming)] := by
  decide +kernel

/-- For InternalErrorIsNeverReported and StepOnlyAddsToTheLogs: a step of the worker that reports, and one of the foreground
that returns. -/
theorem witness_StepsThatReport :
    (nextOf (step (session [.worker] [0x7D, 0x7E]))).map State.events = some [.error 2 .eFraming] ∧
    (nextOf (step (withInputs [.op [0x5, 0, 0, 0, 0, 0]]))).map State.results = some [.status .sTimeout] := by decide

/-- A state inside READ, with a frame half received, meets the invariant. -/
theorem readingState_inv (is : List Input) (q : List Byte) (n : Nat) : ((partialState is q).beginRead n).Inv where
  bank := (partialState_inv is q).bank
  frames := (partialState_inv is q).frames
  lc :=
    { current := (partialState_inv is q).lc.current
      last := (partialState_inv is q).lc.last
      running_alive := fun h => by cases h }
  exiting := fun h => by cases h
  stopping := fun h => by cases h
  reading := fun _ => ⟨rfl, rfl⟩

/-- The three modes, each met by a state that meets the invariant; the two ways out of Idle; the ways back, from Blocking by
a READ's end, from Background by the worker's exit, and STOP's return after it. -/
theorem witness_ModesChangeOnlyByReadStartAndReturn :
    (partialState [.op [0x5, 0, 0, 0, 0, 1]] []).Inv ∧ (partialState [.op [0x5, 0, 0, 0, 0, 1]] []).mode = .idle ∧
    (nextOf (step (partialState [.op [0x5, 0, 0, 0, 0, 1]] []))).map State.mode = some .blocking ∧
    (partialState [.op [0x6, 0, 0, 0]] []).Inv ∧
    (nextOf (step (partialState [.op [0x6, 0, 0, 0]] []))).map State.mode = some .background ∧
    (session [] []).Inv ∧ (session [] []).mode = .background ∧
    ((partialState [] [0x7D, 0x7E]).beginRead 1).Inv ∧ ((partialState [] [0x7D, 0x7E]).beginRead 1).mode = .blocking ∧
    (nextOf (step ((partialState [] [0x7D, 0x7E]).beginRead 1))).map State.mode = some .idle ∧
    (stoppingSession []).Inv ∧ (stoppingSession []).mode = .background ∧
    (nextOf (step (stoppingSession []))).map State.mode = some .idle ∧
    (exitedSession []).Inv ∧ (exitedSession []).foreground = .stopping ∧
    (nextOf (step (exitedSession []))).map State.foreground = some .idle :=
  ⟨partialState_inv _ _, rfl, by decide, partialState_inv _ _, by decide, session_inv _ _, rfl, readingState_inv _ _ _, rfl,
    by decide, stoppingSession_inv _, rfl, by decide, exitedSession_inv _, rfl, by decide⟩

/-- For NoStepFaultsFromTheInvariant too: a state that meets the invariant, and whose next step delivers a frame. -/
theorem witness_StepKeepsTheInvariant :
    (session [.worker] [0xB9, 0x15, 0x7E]).Inv ∧
    (nextOf (step (session [.worker] [0xB9, 0x15, 0x7E]))).map State.events = some [.frame 1 [0x41]] :=
  ⟨session_inv _ _, by decide +kernel⟩

/-- The reset state with a finished Frame meets the invariant. -/
theorem withErredFrame_inv (is : List Input) : (withErredFrame is).Inv where
  bank := bankWf_setFrame bankWf_reset 0 (Frame.fresh.failFlags .eFraming)
  frames := frames_setFrame (s := State.reset) (P := Frame.Inv) (by simp [State.reset]) 0
    (F := Frame.fresh.failFlags .eFraming)
    { data_wf := fresh_data_wf
      data_dense := fun i => by simp [Frame.failFlags, Frame.fresh, Memory.read]
      len_le := by decide
      error_finished := fun _ => rfl
      code_error := by decide
      code_kind := .inr (.inl rfl)
      success := fun _ h => by cases h }
  lc :=
    { current := fun F hF => by cases hF
      last := fun F hF => by cases hF
      running_alive := fun h => by cases h }
  exiting := fun h => by cases h
  stopping := fun h => by cases h
  reading := fun h => by cases h

/-- The three refusals, from states that meet the invariant; the refusal of a finished Frame for FA_ADDBYTE and for a symbol. -/
theorem witness_StepRefusesOnlyWhatTheSpecRefuses :
    (session [.op [0x5, 0, 0, 0, 0, 1]] []).Inv ∧
    refusalOf (step (session [.op [0x5, 0, 0, 0, 0, 1]] [])) = some .readWhileReaderRuns ∧
    (session [.op [0x8, 0]] []).Inv ∧
    refusalOf (step (session [.op [0x8, 0]] [])) = some (.undecodable .reservedOp) ∧
    (withErredFrame [.op [0x0, 0, 0, 0, 0, 0, 0x41]]).Inv ∧
    refusalOf (step (withErredFrame [.op [0x0, 0, 0, 0, 0, 0, 0x41]])) = some .frameFinished ∧
    (withErredFrame [.op [0x7D, 1, 0, 0, 0, 0]]).Inv ∧
    refusalOf (step (withErredFrame [.op [0x7D, 1, 0, 0, 0, 0]])) = some .frameFinished :=
  ⟨session_inv _ _, by decide, session_inv _ _, by decide, withErredFrame_inv _, by decide, withErredFrame_inv _, by decide⟩

end Sys2Proof.Tests
end

section
namespace Sys2Proof.Machine

/-- Settles O6: an idle foreground fetches the command at the head of the inputs (R8), and taking it leaves the Frames, so
also the decoder's view of them, as they were. -/
theorem stepRunsTheDecodedInstruction : Obligations.StepRunsTheDecodedInstruction := by
  intro s c rest hidle hinputs
  have hfetch : fetchOp s = some (c, { s with inputs := rest }) := fetchOp_op hidle hinputs
  have hview : ({ s with inputs := rest } : State).view = s.view := rfl
  constructor
  · intro i hdecode
    exact step_of_fetch hfetch (hview ▸ hdecode)
  · intro e hdecode
    exact step_of_fetch_error hfetch (hview ▸ hdecode)

end Sys2Proof.Machine
end

section
namespace Sys2Proof.Machine

/-! ### The invariant of a Frame is kept by every byte (R27) -/

/-- A fresh Frame holds nothing and has not finished (R41). -/
theorem fresh_inv : Frame.fresh.Inv where
  data_wf := fresh_data_wf
  data_dense i := by simp [Frame.fresh]
  len_le := Nat.zero_le _
  error_finished h := nomatch h
  code_error := by decide
  code_kind := .inl rfl
  success h := nomatch h

/-- What a `MemRead` that answers bytes has read (R62). -/
theorem memRead_eq_ok {F : Frame} {i n : Nat} {p : List Byte} (h : F.memRead i n = .ok p) :
    i + n ≤ F.len ∧ F.data.readRange i n = some p := by
  unfold Frame.memRead at h
  split at h
  · split at h
    · cases h; exact ⟨‹_›, ‹_›⟩
    · cases h
  · cases h

/-- A Frame in progress records no error (R27 (b), (c)). -/
theorem Frame.Inv.no_error {F : Frame} (h : F.Inv) (hf : F.finished = false) : F.error = false ∧ F.errCode = .ok := by
  have he : F.error = false := by
    cases he : F.error with
    | false => rfl
    | true => exact absurd (h.error_finished he) (by simp [hf])
  exact ⟨he, by simpa [he] using h.code_error⟩

/-- The mode is free while the Frame is in progress. -/
theorem Frame.Inv.withState {F : Frame} (h : F.Inv) (hf : F.finished = false) (st : AsmState) :
    { F with state := st }.Inv :=
  { h with success := fun hfin => absurd hfin (by simp [hf]) }

/-- Abort with any of the three decode errors (R132), whatever checksum the Frame records (Finish writes it, R131). -/
theorem Frame.Inv.failed {F : Frame} (h : F.Inv) {c : Status} (hc : c = .eFraming ∨ c = .eTooBig ∨ c = .eCrc)
    (x : Word16) : { F with crc := x, error := true, finished := true, errCode := c }.Inv :=
  { h with
    error_finished := fun _ => rfl
    code_error := by rcases hc with rfl | rfl | rfl <;> simp
    code_kind := .inr hc
    success := fun _ he => nomatch he }

/-- A byte stored at the end of a buffer with room extends the indexes that hold a value by one (R129). -/
theorem Frame.Inv.extended {F : Frame} (h : F.Inv) (hf : F.finished = false) (hl : F.len < Config.maxFrame) (v : Byte) :
    { F with data := F.data.write F.len v, len := F.len + 1 }.Inv :=
  { h with
    data_wf := Memory.wf_write h.data_wf _ _
    data_dense := fun i => by
      rw [Memory.read_write]
      split
      · simp; omega
      · simp only [h.data_dense]; omega
    len_le := hl
    success := fun hfin => absurd hfin (by simp [hf]) }

/-- Finish on a match leaves the payload whose checksum it records (R131). -/
theorem Frame.Inv.succeeded {F : Frame} (h : F.Inv) (hf : F.finished = false) (hs : F.state = .reading) {n : Nat}
    (hn : 1 ≤ n) (hl : n ≤ F.len) {p : List Byte} (hp : F.data.readRange 0 n = some p) {x : Word16}
    (hx : crc16 p = x) :
    { F with crc := x, data := F.data.trim n, len := n, finished := true, error := false }.Inv where
  data_wf := Memory.wf_trim h.data_wf _
  data_dense i := by
    rw [Memory.read_trim]
    split
    · simp only [h.data_dense]; omega
    · simpa using ‹¬ i < n›
  len_le := Nat.le_trans hl h.len_le
  error_finished _ := rfl
  code_error := by simp [(h.no_error hf).2]
  code_kind := h.code_kind
  success _ _ := ⟨hn, hs, p, by rw [Memory.readRange_trim, hp], hx⟩

theorem append_inv {F G : Frame} {v : Byte} {t : Bool} (h : F.Inv) (hf : F.finished = false)
    (ha : F.append v = .ok (G, t)) : G.Inv ∧ G.finished = t := by
  rcases append_cases ha with ⟨-, rfl, rfl⟩ | ⟨hl, rfl, rfl⟩
  · exact ⟨h.failed (.inr (.inl rfl)) F.crc, rfl⟩
  · exact ⟨h.extended hf hl v, hf⟩

theorem finish_inv {F G : Frame} {t : Bool} (h : F.Inv) (hf : F.finished = false) (hs : F.state = .reading)
    (hl : Config.minFinish ≤ F.len) (hfin : F.finish = .ok (G, t)) : G.Inv ∧ G.finished = t := by
  obtain ⟨rfl, hi, lo, p, -, hp, ⟨hc, rfl⟩ | ⟨-, rfl⟩⟩ := finish_cases hfin
  · have hlen : 3 ≤ F.len := hl
    exact ⟨h.succeeded hf hs (by omega) (by omega) (memRead_eq_ok hp).2 hc, rfl⟩
  · exact ⟨h.failed (.inr (.inr rfl)) _, rfl⟩

/-- A byte keeps the invariant of its Frame (R27), and its result says whether the Frame has finished (R137 (a)): one case
for each row of R135. -/
theorem addByte_inv {F G : Frame} {b : Byte} {t : Bool} (h : F.Inv) (hb : F.addByte b = .ok (G, t)) :
    G.Inv ∧ G.finished = t := by
  obtain ⟨hf, hrow⟩ := addByte_cases hb
  rcases hrow with ⟨-, -, rfl, rfl⟩ | ⟨-, hs, hl, hfin⟩ | ⟨-, -, -, rfl, rfl⟩ | ⟨-, -, rfl, rfl⟩ | ⟨-, -, ha⟩ |
    ⟨-, -, -, ha⟩
  · exact ⟨h.failed (.inl rfl) F.crc, rfl⟩
  · exact finish_inv h hf hs hl hfin
  · exact ⟨h, hf⟩
  · exact ⟨h.withState hf .escaping, hf⟩
  · exact append_inv (h.withState hf .reading) hf ha
  · exact append_inv h hf ha

end Sys2Proof.Machine
end

section
namespace Sys2Proof.Machine

/-! ### What a pop leaves of the transport (R74) -/

theorem settle_rxClosed {t : Transport} (h : t.rxClosed = true) : t.settle.rxClosed = true := by
  unfold Transport.settle
  split
  · rfl
  · exact h

/-- A pop writes nothing to `txlog`. -/
theorem rxPop_txlog {t u : Transport} {o : Option Byte} (h : t.rxPop = (o, u)) : u.txlog = t.txlog := by
  rcases rxPop_cases t with ⟨-, hu⟩ | ⟨b, q, -, -, hp⟩
  · rw [h] at hu
    simpa using congrArg Transport.txlog hu
  · rw [h] at hp
    cases hp
    exact settle_txlog t

/-- A pop does not reopen the stream. -/
theorem rxPop_rxClosed {t u : Transport} {o : Option Byte} (h : t.rxPop = (o, u)) (hc : t.rxClosed = true) :
    u.rxClosed = true := by
  rw [rxPop_closed hc] at h
  cases h
  exact settle_rxClosed hc

/-! ### The poll iteration byte by byte (R178) -/

/-- What a poll iteration, or none, can make of the Link Controller and the transport: pops, each byte fed to the current
Frame, which is handed off when it finishes. -/
inductive Polled (lc : LinkController) (t : Transport) : LinkController → Transport → Prop
  | start : Polled lc t lc t
  | eos {lc' : LinkController} {t' u : Transport} (h : Polled lc t lc' t') (hp : t'.rxPop = (none, u)) : Polled lc t lc' u
  | byte {lc' : LinkController} {t' u : Transport} {b : Byte} {F : Frame} (h : Polled lc t lc' t')
      (hp : t'.rxPop = (some b, u)) (hb : lc'.frameForByte.addByte b = .ok (F, false)) :
      Polled lc t { lc' with currentFrame := some F } u
  | terminal {lc' : LinkController} {t' u : Transport} {b : Byte} {F : Frame} (h : Polled lc t lc' t')
      (hp : t'.rxPop = (some b, u)) (hb : lc'.frameForByte.addByte b = .ok (F, true)) :
      Polled lc t (lc'.handoff F) u

theorem drainLoop_polled {n : Nat} {lc lc₁ lc₂ : LinkController} {t t₁ t₂ : Transport} {d : Drained}
    (h : Polled lc t lc₁ t₁) (hd : drainLoop n lc₁ t₁ = .ok (lc₂, t₂, d)) : Polled lc t lc₂ t₂ := by
  induction n generalizing lc₁ t₁ with
  | zero => cases hd; exact h
  | succ n ih =>
    rcases hp : t₁.rxPop with ⟨_ | b, u⟩
    · rw [drainLoop_eos hp] at hd
      cases hd
      exact h.eos hp
    · cases hb : lc₁.frameForByte.addByte b with
      | error e => rw [drainLoop_error hp hb] at hd; cases hd
      | ok r =>
        obtain ⟨F, fin⟩ := r
        cases fin with
        | true =>
          rw [drainLoop_terminal hp hb] at hd
          cases hd
          exact h.terminal hp hb
        | false =>
          rw [drainLoop_continue hp hb] at hd
          exact ih (h.byte hp hb) hd

theorem drainOnce_polled {lc lc' : LinkController} {t t' : Transport} {d : Drained}
    (h : drainOnce lc t = .ok (lc', t', d)) : Polled lc t lc' t' := by
  unfold drainOnce at h
  split at h
  · cases h; exact .start
  · exact drainLoop_polled .start h

namespace Polled

variable {lc lc' : LinkController} {t t' : Transport}

/-- A poll writes no field of the Link Controller but its two Frames (R40). -/
theorem lc_eq (h : Polled lc t lc' t') :
    lc' = { lc with currentFrame := lc'.currentFrame, lastFrame := lc'.lastFrame } := by
  induction h with
  | start => rfl
  | eos _ _ ih => exact ih
  | byte _ _ _ ih => rw [ih]
  | terminal _ _ _ ih => rw [ih]; rfl

theorem running_eq (h : Polled lc t lc' t') : lc'.running = lc.running := by rw [h.lc_eq]

theorem workerAlive_eq (h : Polled lc t lc' t') : lc'.workerAlive = lc.workerAlive := by rw [h.lc_eq]

theorem transport_eq (h : Polled lc t lc' t') : lc'.transport = lc.transport := by rw [h.lc_eq]

/-- A poll writes nothing to `txlog`. -/
theorem txlog_eq (h : Polled lc t lc' t') : t'.txlog = t.txlog := by
  induction h with
  | start => rfl
  | eos _ hp ih | byte _ hp _ ih | terminal _ hp _ ih => rw [rxPop_txlog hp, ih]

/-- A poll does not reopen the stream. -/
theorem rxClosed (h : Polled lc t lc' t') (hc : t.rxClosed = true) : t'.rxClosed = true := by
  induction h with
  | start => exact hc
  | eos _ hp ih | byte _ hp _ ih | terminal _ hp _ ih => exact rxPop_rxClosed hp ih

end Polled

/-- The Frame the next byte goes to meets the invariant: it is `current_frame`, or a fresh one. -/
theorem frameForByte_inv {lc : LinkController} (h : lc.Inv) : lc.frameForByte.Inv := by
  unfold LinkController.frameForByte
  cases hc : lc.currentFrame with
  | none => exact fresh_inv
  | some F => exact (h.current F hc).1

/-- A poll keeps the invariant of the Link Controller: `current_frame` takes the Frame of a byte that did not finish it, and
`last_frame` that of one that did (R32, R33). -/
theorem Polled.inv {lc lc' : LinkController} {t t' : Transport} (h : Polled lc t lc' t') (hi : lc.Inv) : lc'.Inv := by
  induction h with
  | start => exact hi
  | eos _ _ ih => exact ih
  | byte _ _ hb ih => exact { ih with current := by rintro _ ⟨⟩; exact addByte_inv (frameForByte_inv ih) hb }
  | terminal _ _ hb ih =>
    exact { ih with
      current := fun _ hF => nomatch hF
      last := by rintro _ ⟨⟩; exact addByte_inv (frameForByte_inv ih) hb }

/-! ### The iterations of READ and of the worker (R182, R202) -/

/-- What an iteration of READ's loop can change: it polls or does not, and goes on, or ends with one result. -/
theorem readIteration_frame {s t : State} (h : readIteration s = .next t) :
    t.frames = s.frames ∧ t.inputs = s.inputs ∧ Polled s.lc s.env t.lc t.env ∧
      ((t.foreground = s.foreground ∧ t.outputs = s.outputs) ∨
        (t.foreground = .idle ∧ ∃ r, t.outputs = s.outputs ++ [.result r])) := by
  obtain ⟨-, rfl⟩ | ⟨-, lc, env, d, hd, hact⟩ := readIteration_eq_next h
  · have hp : Polled s.lc s.env s.lc s.env := .start
    simpa using hp
  · have hp := drainOnce_polled hd
    obtain ⟨-, rfl⟩ | ⟨-, rfl⟩ | ⟨F, v, -, -, rfl⟩ := readDispatch_eq_next hact <;> simpa using hp

/-- What an iteration of the worker's loop can change: it exits, or polls and invokes at most one handler. -/
theorem workerIteration_frame {s t : State} (h : workerIteration s = .next t) :
    (s.lc.running = false ∧ t = s.workerExit) ∨
      (s.lc.running = true ∧ t.frames = s.frames ∧ t.inputs = s.inputs ∧ t.foreground = s.foreground ∧
        Polled s.lc s.env t.lc t.env ∧ (t.outputs = s.outputs ∨ ∃ e, t.outputs = s.outputs ++ [.event e])) := by
  obtain ⟨hr, rfl⟩ | ⟨hr, lc, env, d, hd, hact⟩ := workerIteration_eq_next h
  · exact .inl ⟨hr, rfl⟩
  · have hp := drainOnce_polled hd
    refine .inr ⟨hr, ?_⟩
    obtain rfl | ⟨F, v, e, -, -, -, rfl⟩ := workerDispatch_eq_next hact <;> simpa using hp

end Sys2Proof.Machine
end

section
namespace Sys2Proof.Machine

/-! ### Everything a step can do -/

/-- A move of the environment on the transport (R74). -/
def Transport.EnvMove (e e' : Transport) : Prop :=
  (∃ bs, e' = e.receive bs) ∨ e' = e.close ∨ ∃ n, e' = e.planClose n

/-- What a step can do to the state once its input is taken: one case for each kind of operation, turn and move, with its
guard. -/
inductive Move (s : State) : State → Prop
  | stay : Move s s
  | answer (r : Result) : Move s (s.returns r)
  | feed {f : Nat} {b : Byte} {G : Frame} {fin : Bool} (hb : (s.frameAt f).addByte b = .ok (G, fin)) :
      Move s (s.putFrame f G fin)
  | resetFrame (f : Nat) : Move s (s.setFrame f Frame.fresh)
  | send (p : List Byte) (hidle : s.foreground = .idle) :
      Move s ({ s with env := s.env.txWrite (wireEncode p) }.returns (.sent (wireEncode p).length))
  | readIssue {t : State} (timeout : Nat) (hidle : s.foreground = .idle) (hbg : s.background = false)
      (h : readIteration (s.beginRead timeout) = .next t) : Move s t
  | readTurn {t : State} (hreading : s.foreground = .reading) (h : readIteration s = .next t) : Move s t
  | start (onFrame onError : Option Nat) (hidle : s.foreground = .idle) (hr : s.lc.running = false) :
      Move s ({ s with lc := s.lc.startReader onFrame onError }.returns (.status .ok))
  | stopWait (hidle : s.foreground = .idle) (ha : s.lc.workerAlive = true) :
      Move s { s.clearRunning with foreground := .stopping }
  | stopAtOnce (hidle : s.foreground = .idle) (ha : s.lc.workerAlive = false) :
      Move s (s.clearRunning.returns (.status .ok))
  | stopReturn (hstopping : s.foreground = .stopping) (ha : s.lc.workerAlive = false) : Move s (s.endOp (.status .ok))
  | workerTurn {t : State} (ha : s.lc.workerAlive = true) (h : workerIteration s = .next t) : Move s t
  | environment {e : Transport} (h : s.env.EnvMove e) : Move s { s with env := e }

/-- READ answers a next state only from an idle foreground with no reader, and as its first iteration does (R182, R191). -/
theorem execRead_eq_next {s t : State} {timeout : Nat} (h : execRead timeout s = .next t) :
    s.foreground = .idle ∧ s.background = false ∧ readIteration (s.beginRead timeout) = .next t := by
  obtain ⟨hidle, h⟩ := whenIdle_eq_next h
  split at h
  · cases h
  · exact ⟨hidle, by simpa using ‹¬ s.background = true›, h⟩

theorem execTxLit_eq_next {s t : State} {x : Byte} (h : execTxLit x s = .next t) :
    t = s.returns (.bytes (stuffByte x)) := by
  unfold execTxLit at h
  split at h
  · cases h; rfl
  · cases h

theorem runSymbol_move {sym : RxSym} {f : Nat} {b : Byte} {s t : State} (h : runSymbol sym f b s = .next t) :
    Move s t := by
  obtain ⟨-, G, fin, hb, rfl⟩ := runSymbol_eq_next h
  exact .feed hb

theorem execStart_move {s t : State} {a b : Option Nat} (h : execStart a b s = .next t) : Move s t := by
  obtain ⟨hidle, h⟩ := whenIdle_eq_next h
  split at h
  · cases h; exact .answer _
  · cases h; exact .start a b hidle (by simpa using ‹¬ s.lc.running = true›)

theorem execStop_move {s t : State} (h : execStop s = .next t) : Move s t := by
  obtain ⟨hidle, h⟩ := whenIdle_eq_next h
  split at h
  · cases h; exact .stopWait hidle ‹_›
  · cases h; exact .stopAtOnce hidle (by simpa using ‹¬ s.lc.workerAlive = true›)

theorem exec_move {i : Instr} {s t : State} (h : exec i s = .next t) : Move s t := by
  cases i with
  | rxEndEsc f | rxEndFin f | rxEndSkip f | rxEsc f | rxDataEsc f b | rxData f b => exact runSymbol_move h
  | txEsc7E | txEsc7D | txFlag | crc16 x | encode p => cases h; exact .answer _
  | txLit x => rw [execTxLit_eq_next h]; exact .answer _
  | faAddbyte f b =>
    obtain ⟨G, fin, hb, rfl⟩ := feedFrame_eq_next h
    exact .feed hb
  | faReset f => cases h; exact .resetFrame f
  | send p =>
    obtain ⟨hidle, h⟩ := whenIdle_eq_next h
    cases h
    exact .send p hidle
  | read timeout =>
    obtain ⟨hidle, hbg, h⟩ := execRead_eq_next h
    exact .readIssue timeout hidle hbg h
  | start a b => exact execStart_move h
  | stop => exact execStop_move h

theorem workerTurn_move {s t : State} (h : workerTurn s = .next t) : Move s t := by
  unfold workerTurn at h
  split at h
  · exact .workerTurn ‹_› h
  · cases h; exact .stay

theorem foregroundTurn_move {s t : State} (h : foregroundTurn s = .next t) : Move s t := by
  unfold foregroundTurn at h
  split at h
  · cases h; exact .stay
  · exact .readTurn ‹_› h
  · split at h
    · cases h; exact .stay
    · cases h; exact .stopReturn ‹_› (by simpa using ‹¬ s.lc.workerAlive = true›)

theorem defaultTurn_move {s t : State} (h : defaultTurn s = .next t) : Move s t := by
  unfold defaultTurn at h
  split at h
  · exact .readTurn ‹_› h
  · exact workerTurn_move h
  · split at h
    · exact .workerTurn ‹_› h
    · exact foregroundTurn_move h

/-- `u` is `s` with its first input taken, or with none taken (R8). -/
def State.Takes (s u : State) : Prop :=
  ∃ rest, (rest = s.inputs ∨ ∃ a, s.inputs = a :: rest) ∧ u = { s with inputs := rest }

theorem State.Takes.none (s : State) : s.Takes s := ⟨s.inputs, .inl rfl, rfl⟩

theorem State.Takes.first {s : State} {a : Input} {rest : List Input} (h : s.inputs = a :: rest) :
    s.Takes { s with inputs := rest } := ⟨rest, .inr ⟨a, h⟩, rfl⟩

/-- An agent's turn or a move of the environment. -/
theorem agentTurn_move {s t : State} (h : agentTurn s = .next t) : ∃ u, s.Takes u ∧ Move u t := by
  unfold agentTurn at h
  split at h
  · exact ⟨s, .none s, defaultTurn_move h⟩
  · exact ⟨s, .none s, defaultTurn_move h⟩
  · cases h; exact ⟨_, .first ‹_›, .environment (.inl ⟨_, rfl⟩)⟩
  · cases h; exact ⟨_, .first ‹_›, .environment (.inr (.inl rfl))⟩
  · cases h; exact ⟨_, .first ‹_›, .environment (.inr (.inr ⟨_, rfl⟩))⟩
  · exact ⟨_, .first ‹_›, foregroundTurn_move h⟩
  · exact ⟨_, .first ‹_›, workerTurn_move h⟩

/-- Everything a step can do: it takes the first input or none, then makes one move. -/
theorem step_move {s t : State} (h : step s = .next t) : ∃ u, s.Takes u ∧ Move u t := by
  obtain ⟨c, u, i, hf, -, hexec⟩ | ⟨-, hturn⟩ := step_eq_next h
  · obtain ⟨-, rest, hinputs, rfl⟩ := fetchOp_eq_some hf
    exact ⟨_, .first hinputs, exec_move hexec⟩
  · exact agentTurn_move hturn

end Sys2Proof.Machine
end

section
namespace Sys2Proof.Machine

/-! ### The invariant of the machine is kept by every step -/

namespace State.Inv

variable {s t : State}

/-- Beside the Link Controller's own invariant, the machine's reads only the standalone Frames, the reader's two flags and
the place of the foreground. -/
theorem of_same (h : s.Inv) (hframes : t.frames = s.frames) (hlc : t.lc.Inv) (hr : t.lc.running = s.lc.running)
    (ha : t.lc.workerAlive = s.lc.workerAlive) (hfg : t.foreground = s.foreground) : t.Inv where
  bank := hframes ▸ h.bank
  frames := hframes ▸ h.frames
  lc := hlc
  exiting := by rw [hr, ha, hfg]; exact h.exiting
  stopping := by rw [hr, hfg]; exact h.stopping
  reading := by rw [hr, ha, hfg]; exact h.reading

/-- An idle foreground with a worker only under a set flag (R36). -/
theorem of_idle (h : s.Inv) (hframes : t.frames = s.frames) (hlc : t.lc.Inv) (hfg : t.foreground = .idle)
    (ha : t.lc.workerAlive = true → t.lc.running = true) : t.Inv where
  bank := hframes ▸ h.bank
  frames := hframes ▸ h.frames
  lc := hlc
  exiting halive hstopped := by simp [ha halive] at hstopped
  stopping hs := by simp [hfg] at hs
  reading hs := by simp [hfg] at hs

theorem returns (h : s.Inv) (r : Result) : (s.returns r).Inv := h.of_same rfl h.lc rfl rfl rfl

theorem setFrame (h : s.Inv) (f : Nat) {F : Frame} (hF : F.Inv) : (s.setFrame f F).Inv :=
  { h with bank := bankWf_setFrame h.bank f F, frames := frames_setFrame h.frames f hF }

theorem frameAt (h : s.Inv) (f : Nat) : (s.frameAt f).Inv := frameAt_of_frames h.frames fresh_inv f

/-- READ's loop goes on, or ends and leaves the Blocking mode (R182, R237). -/
theorem readIteration (h : s.Inv) (hreading : s.foreground = .reading) (hit : readIteration s = .next t) : t.Inv := by
  obtain ⟨hframes, -, hp, ⟨hfg, -⟩ | ⟨hfg, -⟩⟩ := readIteration_frame hit
  · exact h.of_same hframes (hp.inv h.lc) hp.running_eq hp.workerAlive_eq hfg
  · exact h.of_idle hframes (hp.inv h.lc) hfg (by simp [hp.workerAlive_eq, (h.reading hreading).2])

theorem beginRead (h : s.Inv) (hbg : s.background = false) (timeout : Nat) : (s.beginRead timeout).Inv := by
  obtain ⟨hr, ha⟩ : s.lc.running = false ∧ s.lc.workerAlive = false := by simpa [State.background] using hbg
  exact { h with
    lc := { current := h.lc.current, last := h.lc.last, running_alive := h.lc.running_alive }
    exiting := fun halive => absurd halive (by simp [ha])
    stopping := fun hs => nomatch hs
    reading := fun _ => ⟨hr, ha⟩ }

/-- The worker polls on, or exits because STOP has cleared the flag (R202, R203). -/
theorem workerIteration (h : s.Inv) (hit : workerIteration s = .next t) : t.Inv := by
  obtain ⟨hr, rfl⟩ | ⟨-, hframes, -, hfg, hp, -⟩ := workerIteration_frame hit
  · exact { h with
      lc := { h.lc with running_alive := fun hrun => absurd hrun (by simp [hr]) }
      exiting := fun halive => nomatch halive
      reading := fun hs => ⟨hr, rfl⟩ }
  · exact h.of_same hframes (hp.inv h.lc) hp.running_eq hp.workerAlive_eq hfg

theorem clearRunning_lc (h : s.Inv) : s.clearRunning.lc.Inv := { h.lc with running_alive := fun hr => nomatch hr }

/-- STOP has cleared the flag and waits for the worker (R206). -/
theorem stopWait (h : s.Inv) : ({ s.clearRunning with foreground := .stopping } : State).Inv :=
  { h with
    lc := h.clearRunning_lc
    exiting := fun _ _ => rfl
    stopping := fun _ => rfl
    reading := fun hs => nomatch hs }

/-- Every move keeps the invariant. -/
theorem move (h : s.Inv) (hm : Move s t) : t.Inv := by
  cases hm with
  | stay => exact h
  | answer r => exact h.returns r
  | feed hb => exact (h.setFrame _ (addByte_inv (h.frameAt _) hb).1).returns _
  | resetFrame f => exact h.setFrame f fresh_inv
  | send p _ => exact h.of_same rfl h.lc rfl rfl rfl
  | readIssue timeout _ hbg hit => exact (h.beginRead hbg timeout).readIteration rfl hit
  | readTurn hreading hit => exact h.readIteration hreading hit
  | start a b hidle _ =>
    exact h.of_idle rfl { h.lc with running_alive := fun _ => rfl } hidle (fun _ => rfl)
  | stopWait _ _ => exact h.stopWait
  | stopAtOnce hidle ha => exact h.of_idle rfl h.clearRunning_lc hidle (by simp [ha])
  | stopReturn _ ha => exact h.of_idle rfl h.lc rfl (by simp [ha])
  | workerTurn _ hit => exact h.workerIteration hit
  | environment _ => exact h.of_same rfl h.lc rfl rfl rfl

end State.Inv

/-- Settles O58: taking an input touches nothing the invariant reads, and every move keeps it. -/
theorem stepKeepsTheInvariant : Obligations.StepKeepsTheInvariant := by
  intro s t h hstep
  obtain ⟨_, ⟨rest, -, rfl⟩, hm⟩ := step_move hstep
  have hu : ({ s with inputs := rest } : State).Inv := h.of_same rfl h.lc rfl rfl rfl
  exact hu.move hm

/-- Settles O57: at reset no Frame is held and no reader runs (R42). -/
theorem resetMeetsTheInvariant : Obligations.ResetMeetsTheInvariant where
  bank := bankWf_reset
  frames := fun _ hc => nomatch hc
  lc :=
    { current := fun _ hF => nomatch hF
      last := fun _ hF => nomatch hF
      running_alive := fun hr => nomatch hr }
  exiting := fun ha => nomatch ha
  stopping := fun hs => nomatch hs
  reading := fun hs => nomatch hs

end Sys2Proof.Machine
end

section
namespace Sys2Proof.Machine

/-! ### What READ and every step leave, and construction -/

/-- Settles O42: READ sets the deadline and runs one iteration, which writes the Link Controller's two Frames alone (R40,
R182). -/
theorem readTouchesOnlyItsOwnState : Obligations.ReadTouchesOnlyItsOwnState := by
  intro s t timeout h
  obtain ⟨-, -, hit⟩ := execRead_eq_next h
  obtain ⟨hframes, hinputs, hp, hout⟩ := readIteration_frame hit
  exact ⟨hframes, hp.txlog_eq, hinputs, hout.imp And.right And.right, hp.lc_eq⟩

/-- The environment's moves leave `txlog` (R74). -/
theorem Transport.EnvMove.txlog_eq {e e' : Transport} (h : e.EnvMove e') : e'.txlog = e.txlog := by
  rcases h with ⟨bs, rfl⟩ | rfl | ⟨n, rfl⟩
  · unfold Transport.receive; split <;> rfl
  · rfl
  · unfold Transport.planClose; split <;> rfl

/-- The environment does not reopen the stream (R74). -/
theorem Transport.EnvMove.rxClosed {e e' : Transport} (h : e.EnvMove e') (hc : e.rxClosed = true) :
    e'.rxClosed = true := by
  rcases h with ⟨bs, rfl⟩ | rfl | ⟨n, rfl⟩
  · simp [Transport.receive, hc]
  · rfl
  · simp [Transport.planClose, hc]

/-- `t` adds to the logs of `s` alone: `txlog` and the sequence of results and handler calls (R268) grow at their ends, and
the transport's identity and a closure of its stream stay. -/
structure State.LogsGrow (s t : State) : Prop where
  transport : t.lc.transport = s.lc.transport
  txlog : ∃ w, t.env.txlog = s.env.txlog ++ w
  outputs : t.outputs = s.outputs ∨ ∃ o, t.outputs = s.outputs ++ [o]
  closed : s.env.rxClosed = true → t.env.rxClosed = true

namespace State.LogsGrow

variable {s t : State}

theorem of_env (hlc : t.lc.transport = s.lc.transport) (htx : t.env.txlog = s.env.txlog)
    (hclosed : s.env.rxClosed = true → t.env.rxClosed = true)
    (hout : t.outputs = s.outputs ∨ ∃ o, t.outputs = s.outputs ++ [o]) : s.LogsGrow t :=
  ⟨hlc, ⟨[], by simp [htx]⟩, hout, hclosed⟩

theorem of_polled (hp : Polled s.lc s.env t.lc t.env)
    (hout : t.outputs = s.outputs ∨ ∃ o, t.outputs = s.outputs ++ [o]) : s.LogsGrow t :=
  of_env hp.transport_eq hp.txlog_eq hp.rxClosed hout

theorem readIteration (hit : readIteration s = .next t) : s.LogsGrow t := by
  obtain ⟨-, -, hp, hout⟩ := readIteration_frame hit
  exact of_polled hp (hout.imp And.right fun ⟨_, r, hr⟩ => ⟨_, hr⟩)

theorem workerIteration (hit : workerIteration s = .next t) : s.LogsGrow t := by
  obtain ⟨-, rfl⟩ | ⟨-, -, -, -, hp, hout⟩ := workerIteration_frame hit
  · exact of_env rfl rfl id (.inl rfl)
  · exact of_polled hp (hout.imp_right fun ⟨_, he⟩ => ⟨_, he⟩)

/-- Every move adds to the logs alone. -/
theorem move (hm : Move s t) : s.LogsGrow t := by
  cases hm with
  | stay | resetFrame | stopWait => exact of_env rfl rfl id (.inl rfl)
  | answer | feed | start | stopAtOnce | stopReturn => exact of_env rfl rfl id (.inr ⟨_, rfl⟩)
  | send p _ => exact ⟨rfl, ⟨wireEncode p, rfl⟩, .inr ⟨_, rfl⟩, id⟩
  | readIssue timeout _ _ hit =>
    obtain ⟨hlc, htx, hout, hclosed⟩ := readIteration hit
    exact ⟨hlc, htx, hout, hclosed⟩
  | readTurn _ hit => exact readIteration hit
  | workerTurn _ hit => exact workerIteration hit
  | environment h => exact of_env rfl h.txlog_eq h.rxClosed (.inl rfl)

end State.LogsGrow

/-- Settles O55: taking an input touches no log, and every move only adds to them. -/
theorem stepOnlyAddsToTheLogs : Obligations.StepOnlyAddsToTheLogs := by
  intro s t hstep
  obtain ⟨_, ⟨rest, -, rfl⟩, hm⟩ := step_move hstep
  obtain ⟨hlc, htx, hout, hclosed⟩ := State.LogsGrow.move hm
  exact ⟨hlc, htx, hout, hclosed⟩

/-- Settles O51: construction writes R42's values, and FLUSH_ON_INIT decides on the stream alone (R175). -/
theorem constructionGivesTheResetState : Obligations.ConstructionGivesTheResetState :=
  fun _ _ => ⟨rfl, rfl, rfl, construct_reset⟩

end Sys2Proof.Machine
end

section
namespace Sys2Proof.Machine

/-! ### From the invariant no access of the frame buffer misses its bound (R62) -/

/-- A range whose every index holds a value reads as some bytes (R22). -/
theorem Memory.readRange_of_dense {m : Memory} {i n : Nat} (h : ∀ k, i ≤ k → k < i + n → (m.read k).isSome = true) :
    ∃ p, m.readRange i n = some p := by
  induction n generalizing i with
  | zero => exact ⟨[], rfl⟩
  | succ n ih =>
    obtain ⟨b, hb⟩ := Option.isSome_iff_exists.mp (h i (by omega) (by omega))
    obtain ⟨p, hp⟩ := ih (i := i + 1) (fun k hk hk' => h k (by omega) (by omega))
    exact ⟨b :: p, by simp only [Memory.readRange, hb, hp]⟩

/-- The whole buffer can be read: every index below `len` holds a value (R22). -/
theorem Frame.Inv.readRange {F : Frame} (h : F.Inv) : ∃ p, F.data.readRange 0 F.len = some p :=
  Memory.readRange_of_dense fun k _ hk => (h.data_dense k).mpr (by omega)

/-- The bytes of a buffer that can finish: a payload, then the two bytes of its checksum (R123). -/
theorem Frame.Inv.readRange_payload_crc {F : Frame} (h : F.Inv) (hl : Config.minFinish ≤ F.len) :
    ∃ p hi lo, F.len = p.length + 2 ∧ F.data.readRange 0 F.len = some (p ++ [hi, lo]) := by
  obtain ⟨q, hq⟩ := h.readRange
  have hlen : q.length = F.len := (Memory.readRange_eq_some.mp hq).1
  have hmin : 3 ≤ F.len := hl
  have hdrop : (q.drop (F.len - 2)).length = 2 := by rw [List.length_drop]; omega
  obtain ⟨hi, lo, htail⟩ := List.length_eq_two.mp hdrop
  refine ⟨q.take (F.len - 2), hi, lo, ?_, ?_⟩
  · rw [List.length_take]; omega
  · rw [← htail, List.take_append_drop, hq]

/-- Append stores below MAX_FRAME, or aborts (R129, R130). -/
theorem append_answers {F : Frame} (hl : F.len ≤ Config.maxFrame) (v : Byte) : ∃ G t, F.append v = .ok (G, t) := by
  rcases Nat.lt_or_eq_of_le hl with hl | hl
  · exact ⟨_, _, append_room hl v⟩
  · exact ⟨_, _, append_full hl v⟩

/-- Both reads of Finish lie below `len` (R123, R131). -/
theorem finish_answers {F : Frame} (h : F.Inv) (hl : Config.minFinish ≤ F.len) : ∃ G t, F.finish = .ok (G, t) := by
  obtain ⟨p, hi, lo, hlen, hp⟩ := h.readRange_payload_crc hl
  by_cases hc : crc16 p = crcOfBytes hi lo
  · exact ⟨_, _, finish_match hlen hp hc⟩
  · exact ⟨_, _, finish_mismatch hlen hp hc⟩

/-- R94 selects Finish's row only with three bytes or more buffered. -/
theorem minFinish_le_of_classifyRx {st : AsmState} {n : Nat} {b : Byte} (h : classifyRx st n b = .endFin) :
    Config.minFinish ≤ n := by
  unfold classifyRx at h
  split at h
  · split at h
    · cases h
    · split at h
      · assumption
      · cases h
  · split at h
    · cases h
    · split at h <;> cases h

/-- A byte fed to a Frame in progress is answered: one case for each arm of R135. -/
theorem addByte_answers {F : Frame} (h : F.Inv) (hf : F.finished = false) (b : Byte) :
    ∃ G t, F.addByte b = .ok (G, t) := by
  rw [addByte_arm hf]
  cases hc : classifyRx F.state F.len b with
  | endEsc | endSkip | esc => exact ⟨_, _, rfl⟩
  | endFin => exact finish_answers h (minFinish_le_of_classifyRx hc)
  | dataEsc => exact append_answers (F := { F with state := .reading }) h.len_le _
  | data => exact append_answers h.len_le b

/-! ### From the invariant every turn of an agent gives a next state -/

/-- The Frame the next byte goes to has not finished (R32, R179). -/
theorem frameForByte_unfinished {lc : LinkController} (h : lc.Inv) : lc.frameForByte.finished = false := by
  unfold LinkController.frameForByte
  cases hc : lc.currentFrame with
  | none => rfl
  | some F => exact (h.current F hc).2

/-- A poll iteration is answered, and a Frame it hands off meets the invariant and has finished (R178, R181). -/
theorem drainLoop_answers (n : Nat) {lc : LinkController} (h : lc.Inv) (t : Transport) :
    ∃ lc' t' d, drainLoop n lc t = .ok (lc', t', d) ∧ ∀ F, d = .terminal F → F.Inv ∧ F.finished = true := by
  induction n generalizing lc t with
  | zero => exact ⟨_, _, _, rfl, nofun⟩
  | succ n ih =>
    rcases hp : t.rxPop with ⟨_ | b, u⟩
    · exact ⟨_, _, _, drainLoop_eos hp n lc, nofun⟩
    · have hF := frameForByte_inv h
      obtain ⟨F, fin, hb⟩ := addByte_answers hF (frameForByte_unfinished h) b
      cases fin with
      | true => exact ⟨_, _, _, drainLoop_terminal hp hb n, by rintro _ ⟨⟩; exact addByte_inv hF hb⟩
      | false =>
        rw [drainLoop_continue hp hb]
        exact ih ((Polled.start.byte hp hb).inv h) u

theorem drainOnce_answers {lc : LinkController} (h : lc.Inv) (t : Transport) :
    ∃ lc' t' d, drainOnce lc t = .ok (lc', t', d) ∧ ∀ F, d = .terminal F → F.Inv ∧ F.finished = true := by
  by_cases hq : t.rxq = []
  · exact ⟨_, _, _, drainOnce_empty hq lc, nofun⟩
  · rw [drainOnce_loop hq]
    exact drainLoop_answers _ h t

/-- A finished Frame carries its payload or its code (R28, R183, R184). -/
theorem verdict_answers {F : Frame} (h : F.Inv) (hf : F.finished = true) : ∃ v, F.verdict = .ok v := by
  cases he : F.error with
  | false =>
    obtain ⟨p, hp⟩ := h.readRange
    exact ⟨_, verdict_success hf he hp⟩
  | true => exact ⟨_, verdict_failure hf he⟩

theorem readDispatch_answers {d : Drained} (hd : ∀ F, d = .terminal F → F.Inv ∧ F.finished = true) (s : State) :
    ∃ t, readDispatch d s = .next t := by
  cases d with
  | noData | drained | eos => exact ⟨_, rfl⟩
  | terminal F =>
    obtain ⟨hF, hfin⟩ := hd F rfl
    obtain ⟨v, hv⟩ := verdict_answers hF hfin
    exact ⟨s.endOp v.readResult, by simp only [readDispatch, hv]⟩

theorem workerDispatch_answers {d : Drained} (hd : ∀ F, d = .terminal F → F.Inv ∧ F.finished = true) (s : State) :
    ∃ t, workerDispatch d s = .next t := by
  cases d with
  | noData | drained | eos => exact ⟨_, rfl⟩
  | terminal F =>
    obtain ⟨hF, hfin⟩ := hd F rfl
    obtain ⟨v, hv⟩ := verdict_answers hF hfin
    simp only [workerDispatch, hv]
    split <;> exact ⟨_, rfl⟩

/-- An iteration of READ's loop expires or polls (R182). -/
theorem readIteration_answers {s : State} (h : s.lc.Inv) : ∃ t, readIteration s = .next t := by
  unfold readIteration
  split
  · exact ⟨_, rfl⟩
  · obtain ⟨lc, env, d, hpoll, hd⟩ := drainOnce_answers h s.env
    simp only [readPoll, expired_lc, expired_env, hpoll]
    exact readDispatch_answers hd _

/-- An iteration of the worker's loop polls or exits (R202, R203). -/
theorem workerIteration_answers {s : State} (h : s.lc.Inv) : ∃ t, workerIteration s = .next t := by
  unfold workerIteration
  split
  · obtain ⟨lc, env, d, hpoll, hd⟩ := drainOnce_answers h s.env
    simp only [hpoll]
    exact workerDispatch_answers hd _
  · exact ⟨_, rfl⟩

theorem workerTurn_answers {s : State} (h : s.lc.Inv) : ∃ t, workerTurn s = .next t := by
  unfold workerTurn
  split
  · exact workerIteration_answers h
  · exact ⟨_, rfl⟩

theorem foregroundTurn_answers {s : State} (h : s.lc.Inv) : ∃ t, foregroundTurn s = .next t := by
  unfold foregroundTurn
  split
  · exact ⟨_, rfl⟩
  · exact readIteration_answers h
  · split <;> exact ⟨_, rfl⟩

theorem defaultTurn_answers {s : State} (h : s.lc.Inv) : ∃ t, defaultTurn s = .next t := by
  unfold defaultTurn
  split
  · exact readIteration_answers h
  · exact workerTurn_answers h
  · split
    · exact workerIteration_answers h
    · exact foregroundTurn_answers h

/-- A step that issues no operation is neither a fault nor refused (R8, R62). -/
theorem agentTurn_answers {s : State} (h : s.lc.Inv) : ∃ t, agentTurn s = .next t := by
  unfold agentTurn
  split
  · exact defaultTurn_answers h
  · exact defaultTurn_answers h
  · exact ⟨_, rfl⟩
  · exact ⟨_, rfl⟩
  · exact ⟨_, rfl⟩
  · exact foregroundTurn_answers h
  · exact workerTurn_answers h

/-! ### From the invariant no instruction faults -/

/-- A next state, or a refusal. -/
def NoFault (o : StepOutcome) : Prop := ∀ r, o ≠ .fault r

theorem noFault_next (s : State) : NoFault (.next s) := nofun

theorem noFault_refused (r : Refusal) : NoFault (.refused r) := nofun

theorem noFault_of_answers {o : StepOutcome} (h : ∃ t, o = .next t) : NoFault o := by
  obtain ⟨t, rfl⟩ := h
  exact noFault_next t

theorem noFault_whenIdle {o : StepOutcome} (h : NoFault o) (s : State) : NoFault (whenIdle s o) := by
  unfold whenIdle
  split
  · exact h
  · exact noFault_refused _
  · exact noFault_refused _

/-- A byte fed to a standalone Frame: refused if the Frame has finished (R121), else answered. -/
theorem feedFrame_noFault {s : State} {f : Nat} (h : (s.frameAt f).Inv) (b : Byte) : NoFault (feedFrame f b s) := by
  cases hf : (s.frameAt f).finished with
  | true => rw [feedFrame_finished hf]; exact noFault_refused _
  | false =>
    obtain ⟨G, t, hb⟩ := addByte_answers h hf b
    exact noFault_of_answers ⟨s.putFrame f G t, by simp only [feedFrame, hb]⟩

theorem runSymbol_noFault {s : State} {f : Nat} (h : (s.frameAt f).Inv) (sym : RxSym) (b : Byte) :
    NoFault (runSymbol sym f b s) := by
  unfold runSymbol
  split
  · exact feedFrame_noFault h b
  · exact noFault_refused _

theorem execTxLit_noFault (x : Byte) (s : State) : NoFault (execTxLit x s) := by
  unfold execTxLit
  split
  · exact noFault_next _
  · exact noFault_refused _

/-- READ issued: refused beside a reader (R191), else its first iteration. -/
theorem execRead_noFault {s : State} (h : s.Inv) (timeout : Nat) : NoFault (execRead timeout s) := by
  refine noFault_whenIdle ?_ s
  split
  · exact noFault_refused _
  · rename_i hbg
    exact noFault_of_answers (readIteration_answers (h.beginRead (by simpa using hbg) timeout).lc)

theorem execStart_noFault (a b : Option Nat) (s : State) : NoFault (execStart a b s) :=
  noFault_whenIdle (by split <;> exact noFault_next _) s

theorem execStop_noFault (s : State) : NoFault (execStop s) :=
  noFault_whenIdle (by split <;> exact noFault_next _) s

theorem exec_noFault {s : State} (h : s.Inv) (i : Instr) : NoFault (exec i s) := by
  cases i with
  | rxEndEsc f | rxEndFin f | rxEndSkip f | rxEsc f | rxDataEsc f b | rxData f b =>
    exact runSymbol_noFault (h.frameAt f) _ _
  | txEsc7E | txEsc7D | txFlag | crc16 x | encode p | faReset f => exact noFault_next _
  | txLit x => exact execTxLit_noFault x s
  | faAddbyte f b => exact feedFrame_noFault (h.frameAt f) b
  | send p => exact noFault_whenIdle (noFault_next _) s
  | read timeout => exact execRead_noFault h timeout
  | start a b => exact execStart_noFault a b s
  | stop => exact execStop_noFault s

/-- Settles O59: the buffer of a Frame that meets R27 holds a byte at each index below `len`, which bounds every read, and
`len` is at most MAX_FRAME, which bounds the one store (R62). -/
theorem noStepFaultsFromTheInvariant : Obligations.NoStepFaultsFromTheInvariant := by
  intro s h
  change NoFault (step s)
  unfold step
  split
  · rename_i c t hfetch
    obtain ⟨-, rest, -, rfl⟩ := fetchOp_eq_some hfetch
    have ht : ({ s with inputs := rest } : State).Inv := h.of_same rfl h.lc rfl rfl rfl
    split
    · exact exec_noFault ht _
    · exact noFault_refused _
  · exact noFault_of_answers (agentTurn_answers h.lc)

end Sys2Proof.Machine
end

section
namespace Sys2Proof.Machine

/-! ### How a byte changes the buffer of its Frame (R61) -/

/-- What R61 lets a byte that brings the value `v` do to a buffer: nothing, one store of `v` at index `len`, or the trim of a
successful Finish. -/
def Frame.BufferStep (F : Frame) (v : Byte) (G : Frame) : Prop :=
  (G.len = F.len ∧ G.data = F.data) ∨ (G.len = F.len + 1 ∧ G.data = F.data.write F.len v) ∨
    (G.len + 2 = F.len ∧ G.data = F.data.trim G.len ∧ G.finished = true ∧ G.error = false)

theorem append_bufferStep {F G : Frame} {v : Byte} {t : Bool} (h : F.append v = .ok (G, t)) : F.BufferStep v G := by
  rcases append_cases h with ⟨-, -, rfl⟩ | ⟨-, -, rfl⟩
  · exact .inl ⟨rfl, rfl⟩
  · exact .inr (.inl ⟨rfl, rfl⟩)

theorem finish_bufferStep {F G : Frame} {t : Bool} (hl : Config.minFinish ≤ F.len) (h : F.finish = .ok (G, t))
    (v : Byte) : F.BufferStep v G := by
  obtain ⟨-, hi, lo, p, -, -, ⟨-, rfl⟩ | ⟨-, rfl⟩⟩ := finish_cases h
  · exact .inr (.inr ⟨Nat.sub_add_cancel (Nat.le_of_succ_le hl), rfl, rfl, rfl⟩)
  · exact .inl ⟨rfl, rfl⟩

/-- A byte brings itself, or its unmasked value in Escaping (R126, R127): one case for each row of R135. -/
theorem addByte_bufferStep {F G : Frame} {b : Byte} {t : Bool} (h : F.addByte b = .ok (G, t)) :
    ∃ v, (v = b ∨ v = b ^^^ 0x20) ∧ F.BufferStep v G := by
  obtain ⟨-, ⟨-, -, -, rfl⟩ | ⟨-, -, hl, hfin⟩ | ⟨-, -, -, -, rfl⟩ | ⟨-, -, -, rfl⟩ | ⟨-, -, ha⟩ | ⟨-, -, -, ha⟩⟩ :=
    addByte_cases h
  · exact ⟨b, .inl rfl, .inl ⟨rfl, rfl⟩⟩
  · exact ⟨b, .inl rfl, finish_bufferStep hl hfin b⟩
  · exact ⟨b, .inl rfl, .inl ⟨rfl, rfl⟩⟩
  · exact ⟨b, .inl rfl, .inl ⟨rfl, rfl⟩⟩
  · exact ⟨maskByte b, .inr rfl, append_bufferStep (F := { F with state := .reading }) ha⟩
  · exact ⟨b, .inl rfl, append_bufferStep ha⟩

namespace Frame.BufferStep

variable {F G : Frame} {v : Byte}

/-- No index below the old and the new length is overwritten. -/
theorem read_below (h : F.BufferStep v G) {i : Nat} (hF : i < F.len) (hG : i < G.len) :
    G.data.read i = F.data.read i := by
  obtain ⟨-, hd⟩ | ⟨-, hd⟩ | ⟨-, hd, -, -⟩ := h
  · rw [hd]
  · rw [hd, Memory.read_write, if_neg (Nat.ne_of_lt hF)]
  · rw [hd, Memory.read_trim, if_pos hG]

/-- Nothing is stored above the old length. -/
theorem read_above (h : F.BufferStep v G) {i : Nat} (hi : F.len < i) (hn : F.data.read i = none) :
    G.data.read i = none := by
  obtain ⟨-, hd⟩ | ⟨-, hd⟩ | ⟨-, hd, -, -⟩ := h
  · rw [hd, hn]
  · rw [hd, Memory.read_write, if_neg (Nat.ne_of_gt hi), hn]
  · rw [hd, Memory.read_trim, hn, ite_self]

/-- The three effects as the buffer reads afterwards. -/
theorem read_cases (h : F.BufferStep v G) :
    (G.len = F.len ∧ G.data = F.data) ∨ (G.len = F.len + 1 ∧ G.data.read F.len = some v) ∨
      (G.len + 2 = F.len ∧ G.finished = true ∧ G.error = false ∧ ∀ i, G.len ≤ i → G.data.read i = none) := by
  obtain hkept | ⟨hl, hd⟩ | ⟨hl, hd, hf, he⟩ := h
  · exact .inl hkept
  · exact .inr (.inl ⟨hl, by rw [hd, Memory.read_write, if_pos rfl]⟩)
  · exact .inr (.inr ⟨hl, hf, he, fun i hi => by rw [hd, Memory.read_trim, if_neg (Nat.not_lt.mpr hi)]⟩)

end Frame.BufferStep

/-- Settles O18: a byte makes one of R61's three changes to the buffer, and FA_RESET empties it (R133). -/
theorem frameBufferIsWrittenOnlyByAppending : Obligations.FrameBufferIsWrittenOnlyByAppending := by
  constructor
  · intro F G b t h
    obtain ⟨v, hv, hstep⟩ := addByte_bufferStep h
    exact ⟨fun _ => hstep.read_below, fun _ => hstep.read_above,
      hstep.read_cases.imp_right (Or.imp_left fun ⟨hl, hr⟩ => ⟨hl, v, hr, hv⟩)⟩
  · intro f s t h
    cases h
    rw [frameAt_setFrame_self, reset_eq_fresh]
    exact ⟨rfl, Memory.read_nil⟩

end Sys2Proof.Machine
end

section
namespace Sys2Proof.Machine

/-! ### The environment's moves on the receive stream (R74) -/

theorem receive_open {t : Transport} (h : t.rxClosed = false) (bs : List Byte) :
    t.receive bs = { t with rxq := t.rxq ++ bs } := by
  simp [Transport.receive, h]

theorem receive_closed {t : Transport} (h : t.rxClosed = true) (bs : List Byte) : t.receive bs = t := if_pos h

theorem planClose_open {t : Transport} (h : t.rxClosed = false) (n : Nat) :
    t.planClose n = { t with closeAfter := some n } := by
  simp [Transport.planClose, h]

/-- An input that is no operation is an agent's turn or a move of the environment (R8). -/
theorem step_of_input {s : State} {a : Input} {rest : List Input} (h : s.inputs = a :: rest) (ha : ∀ c, a ≠ .op c) :
    step s = agentTurn s :=
  step_of_no_fetch (fetchOp_none fun c _ hc => ha c (List.cons.inj (h.symm.trans hc)).1)

theorem step_append {s : State} {bs : List Byte} {rest : List Input} (h : s.inputs = .append bs :: rest) :
    step s = .next { s with inputs := rest, env := s.env.receive bs } := by
  rw [step_of_input h nofun, agentTurn, h]

theorem step_close {s : State} {rest : List Input} (h : s.inputs = .close :: rest) :
    step s = .next { s with inputs := rest, env := s.env.close } := by
  rw [step_of_input h nofun, agentTurn, h]

theorem step_closeAfter {s : State} {n : Nat} {rest : List Input} (h : s.inputs = .closeAfter n :: rest) :
    step s = .next { s with inputs := rest, env := s.env.planClose n } := by
  rw [step_of_input h nofun, agentTurn, h]

/-- Settles O7: each input of the environment is its move on the transport (R74; the plan is log entry 12). -/
theorem environmentMovesTheReceiveStream : Obligations.EnvironmentMovesTheReceiveStream := by
  intro s rest
  refine ⟨fun bs h ho => ?_, fun bs h hc => ?_, fun h => step_close h, fun n h ho => ?_⟩
  · rw [step_append h, receive_open ho]
  · rw [step_append h, receive_closed hc]
  · rw [step_closeAfter h, planClose_open ho]

end Sys2Proof.Machine
end

section
namespace Sys2Proof

/-! ### The receive symbol table (R94) -/

/-- The condition of a row of the receive symbol table on the decoder mode, the decoded length and the byte (R94). -/
abbrev RxSym.Row (st : AsmState) (len : Nat) (b : Byte) : RxSym → Prop
  | .endEsc => b = Config.endByte ∧ st = .escaping
  | .endFin => b = Config.endByte ∧ st = .reading ∧ Config.minFinish ≤ len
  | .endSkip => b = Config.endByte ∧ st = .reading ∧ len < Config.minFinish
  | .esc => b = Config.escByte ∧ st = .reading
  | .dataEsc => b ≠ Config.endByte ∧ st = .escaping
  | .data => b ≠ Config.endByte ∧ b ≠ Config.escByte ∧ st = .reading

/-- The selected row's condition is met: one case for each branch of the table. -/
theorem classifyRx_row (st : AsmState) (len : Nat) (b : Byte) : (classifyRx st len b).Row st len b := by
  by_cases hend : b = Config.endByte
  · subst hend
    cases st with
    | escaping => exact ⟨rfl, rfl⟩
    | reading =>
      by_cases hlen : Config.minFinish ≤ len
      · rw [Machine.classifyRx_end_fin hlen]; exact ⟨rfl, rfl, hlen⟩
      · rw [Machine.classifyRx_end_skip (Nat.lt_of_not_le hlen)]; exact ⟨rfl, rfl, Nat.lt_of_not_le hlen⟩
  · cases st with
    | escaping => rw [Machine.classifyRx_dataEsc len hend]; exact ⟨hend, rfl⟩
    | reading =>
      by_cases hesc : b = Config.escByte
      · subst hesc; exact ⟨rfl, rfl⟩
      · rw [Machine.classifyRx_data len hend hesc]; exact ⟨hend, hesc, rfl⟩

/-- A row is selected exactly under its condition; so the rows exclude one another. -/
theorem classifyRx_eq_iff {st : AsmState} {len : Nat} {b : Byte} {sym : RxSym} :
    classifyRx st len b = sym ↔ sym.Row st len b := by
  constructor
  · rintro rfl
    exact classifyRx_row st len b
  · cases sym with
    | endEsc => rintro ⟨rfl, rfl⟩; exact Machine.classifyRx_end_escaping len
    | endFin => rintro ⟨rfl, rfl, hlen⟩; exact Machine.classifyRx_end_fin hlen
    | endSkip => rintro ⟨rfl, rfl, hlen⟩; exact Machine.classifyRx_end_skip hlen
    | esc => rintro ⟨rfl, rfl⟩; exact Machine.classifyRx_esc len
    | dataEsc => rintro ⟨hend, rfl⟩; exact Machine.classifyRx_dataEsc len hend
    | data => rintro ⟨hend, hesc, rfl⟩; exact Machine.classifyRx_data len hend hesc

/-- Settles O5: each of its six equivalences is `classifyRx_eq_iff` at one row of R94. -/
theorem receiveTableCoversEveryByteOnce : Obligations.ReceiveTableCoversEveryByteOnce :=
  fun _ _ _ => ⟨classifyRx_eq_iff, classifyRx_eq_iff, classifyRx_eq_iff, classifyRx_eq_iff, classifyRx_eq_iff,
    classifyRx_eq_iff⟩

end Sys2Proof
end

section
namespace Sys2Proof

/-! ### The format byte chooses the table (log entry 3) -/

theorem decode_opCommand (view : Nat → AsmState × Nat) (op : Byte) (ops : List Byte) :
    decode view (opCommand op ops) = decodeOp op ops := rfl

theorem decode_received (view : Nat → AsmState × Nat) (b : Byte) (ops : List Byte) :
    decode view (b :: 1 :: ops) = decodeRx view b ops := rfl

theorem decode_transmitted (view : Nat → AsmState × Nat) (x : Byte) (ops : List Byte) :
    decode view (x :: 2 :: ops) = decodeBare (txInstr x) ops := rfl

theorem decode_flag (view : Nat → AsmState × Nat) (b : Byte) (ops : List Byte) :
    decode view (b :: 3 :: ops) = decodeFlag b ops := rfl

/-- An accepted command is one of four kinds, by its format byte. -/
theorem decode_eq_ok {view : Nat → AsmState × Nat} {c : List Byte} {i : Instr} (h : decode view c = .ok i) :
    ∃ b ops, (c = opCommand b ops ∧ decodeOp b ops = .ok i) ∨ (c = b :: 1 :: ops ∧ decodeRx view b ops = .ok i) ∨
      (c = b :: 2 :: ops ∧ decodeBare (txInstr b) ops = .ok i) ∨ (c = b :: 3 :: ops ∧ decodeFlag b ops = .ok i) := by
  match c with
  | [] => cases h
  | [_] => cases h
  | b :: format :: ops =>
    refine ⟨b, ops, ?_⟩
    by_cases hop : format = 0
    · subst hop; exact .inl ⟨rfl, h⟩
    by_cases hrx : format = 1
    · subst hrx; exact .inr (.inl ⟨rfl, h⟩)
    by_cases htx : format = 2
    · subst htx; exact .inr (.inr (.inl ⟨rfl, h⟩))
    by_cases hflag : format = 3
    · subst hflag; exact .inr (.inr (.inr ⟨rfl, h⟩))
    · rw [decode, if_neg hop, if_neg hrx, if_neg htx, if_neg hflag] at h
      cases h

/-! ### Every operand decoder reads exactly what the encoder writes (R101) -/

section Operands

variable {ops rest : List Byte} {i : Instr}

theorem decodeBare_eq_ok {j : Instr} (h : decodeBare j ops = .ok i) : ops = [] ∧ i = j := by
  cases ops with
  | nil => cases h; exact ⟨rfl, rfl⟩
  | cons => cases h

theorem decodeNumber_be32 {n : Nat} (hn : fits32 n = true) (mk : Nat → Instr) : decodeNumber mk (be32 n) = .ok (mk n) := by
  rw [be32, decodeNumber, ofBe32_be32 hn]

theorem decodeNumber_eq_ok {mk : Nat → Instr} (h : decodeNumber mk ops = .ok i) :
    ∃ n, fits32 n = true ∧ ops = be32 n ∧ i = mk n := by
  unfold decodeNumber at h
  split at h
  · cases h; exact ⟨_, fits32_ofBe32 .., (be32_ofBe32 ..).symm, rfl⟩
  · cases h

theorem decodeAddbyte_be32 {f : Nat} (hf : fits32 f = true) (x : Byte) :
    decodeAddbyte (be32 f ++ [x]) = .ok (.faAddbyte f x) := by
  simp only [be32, List.cons_append, List.nil_append, decodeAddbyte, ofBe32_be32 hf]

theorem decodeAddbyte_eq_ok (h : decodeAddbyte ops = .ok i) :
    ∃ f x, fits32 f = true ∧ ops = be32 f ++ [x] ∧ i = .faAddbyte f x := by
  unfold decodeAddbyte at h
  split at h
  · cases h; exact ⟨_, _, fits32_ofBe32 .., by rw [be32_ofBe32]; rfl, rfl⟩
  · cases h

theorem decodeHandler_eq_ok {a : Option Nat} (h : decodeHandler ops = .ok (a, rest)) :
    handlerFits a = true ∧ ops = encodeHandler a ++ rest := by
  cases ops with
  | nil => cases h
  | cons p ops =>
    by_cases habsent : p = 0
    · subst habsent; cases h; exact ⟨rfl, rfl⟩
    by_cases hpresent : p = 1
    · subst hpresent
      match ops with
      | b3 :: b2 :: b1 :: b0 :: rest' =>
        cases h
        exact ⟨fits32_ofBe32 .., by rw [encodeHandler, be32_ofBe32]; rfl⟩
      | [] | [_] | [_, _] | [_, _, _] => cases h
    · simp only [decodeHandler, if_neg habsent, if_neg hpresent, reduceCtorEq] at h

theorem decodeStart_encodeHandler {a b : Option Nat} (ha : handlerFits a = true) (hb : handlerFits b = true) :
    decodeStart (encodeHandler a ++ encodeHandler b) = .ok (.start a b) := by
  have hlast : decodeHandler (encodeHandler b) = .ok (b, []) := by
    simpa using decodeHandler_encodeHandler hb []
  simp only [decodeStart, decodeHandler_encodeHandler ha, hlast]

theorem decodeStart_eq_ok (h : decodeStart ops = .ok i) :
    ∃ a b, handlerFits a = true ∧ handlerFits b = true ∧ ops = encodeHandler a ++ encodeHandler b ∧ i = .start a b := by
  unfold decodeStart at h
  split at h
  · cases h
  · rename_i a rest hfirst
    obtain ⟨ha, rfl⟩ := decodeHandler_eq_ok hfirst
    split at h
    · cases h
    · rename_i b hsecond
      obtain ⟨hb, rfl⟩ := decodeHandler_eq_ok hsecond
      cases h
      exact ⟨a, b, ha, hb, by rw [List.append_nil], rfl⟩
    · cases h

end Operands

/-! ### Well-formedness as propositions, for the instructions with more than one condition -/

theorem wf_rxDataEsc_iff {f : Nat} {b : Byte} :
    (Instr.rxDataEsc f b).wf = true ↔ fits32 f = true ∧ b ≠ Config.endByte := by
  simp only [Instr.wf, Bool.and_eq_true, decide_eq_true_eq]

theorem wf_rxData_iff {f : Nat} {b : Byte} :
    (Instr.rxData f b).wf = true ↔ fits32 f = true ∧ b ≠ Config.endByte ∧ b ≠ Config.escByte := by
  simp only [Instr.wf, Bool.and_eq_true, decide_eq_true_eq, and_assoc]

theorem wf_txLit_iff {x : Byte} : (Instr.txLit x).wf = true ↔ x ≠ Config.endByte ∧ x ≠ Config.escByte := by
  simp only [Instr.wf, Bool.and_eq_true, decide_eq_true_eq]

theorem wf_start_iff {a b : Option Nat} :
    (Instr.start a b).wf = true ↔ handlerFits a = true ∧ handlerFits b = true := by
  simp only [Instr.wf, Bool.and_eq_true]

/-! ### Symbols -/

/-- The command of a received byte reads back as the row that the Frame selects (R94). -/
theorem decode_rxCommand {view : Nat → AsmState × Nat} {f : Nat} {b : Byte} {sym : RxSym} (hf : fits32 f = true)
    (hrow : sym.Row (view f).1 (view f).2 b) : decode view (rxCommand b f) = .ok (rxInstr sym f b) := by
  rw [rxCommand, decode_received, be32, decodeRx, ofBe32_be32 hf, classifyRx_eq_iff.mpr hrow]

theorem txInstr_lit {x : Byte} (hend : x ≠ Config.endByte) (hesc : x ≠ Config.escByte) : txInstr x = .txLit x := by
  rw [txInstr, classifyTx_lit hend hesc]

/-- Settles O1: one case for each row of R94, R95 and R99; a symbol is read back from its row's condition, an operation from
its operands. -/
theorem decodeOfEncodeIsTheInstruction : Obligations.DecodeOfEncodeIsTheInstruction := by
  intro view i hwf hrow
  cases i with
  | rxEndEsc f => exact decode_rxCommand (sym := .endEsc) hwf ⟨rfl, hrow⟩
  | rxEndFin f => exact decode_rxCommand (sym := .endFin) hwf ⟨rfl, hrow⟩
  | rxEndSkip f => exact decode_rxCommand (sym := .endSkip) hwf ⟨rfl, hrow⟩
  | rxEsc f => exact decode_rxCommand (sym := .esc) hwf ⟨rfl, hrow⟩
  | rxDataEsc f b =>
    obtain ⟨hf, hend⟩ := wf_rxDataEsc_iff.mp hwf
    exact decode_rxCommand (sym := .dataEsc) hf ⟨hend, hrow⟩
  | rxData f b =>
    obtain ⟨hf, hend, hesc⟩ := wf_rxData_iff.mp hwf
    exact decode_rxCommand (sym := .data) hf ⟨hend, hesc, hrow⟩
  | txEsc7E => rfl
  | txEsc7D => rfl
  | txLit x =>
    obtain ⟨hend, hesc⟩ := wf_txLit_iff.mp hwf
    rw [encode, decode_transmitted, txInstr_lit hend hesc, decodeBare]
  | txFlag => rfl
  | faAddbyte f b => exact decodeAddbyte_be32 hwf b
  | faReset f => exact decodeNumber_be32 hwf .faReset
  | crc16 s => rfl
  | encode p => rfl
  | send p => rfl
  | read t => exact decodeNumber_be32 hwf .read
  | start a b =>
    obtain ⟨ha, hb⟩ := wf_start_iff.mp hwf
    exact decodeStart_encodeHandler ha hb
  | stop => rfl

end Sys2Proof
end

section
namespace Sys2Proof

/-! ### What an accepted command says (R94, R95, R99) -/

/-- The command `c` is the encoder's for `i`, and `i` is an instruction of the block on the Frames of `view`. -/
abbrev Instr.HasCommand (view : Nat → AsmState × Nat) (i : Instr) (c : List Byte) : Prop :=
  Sys2Proof.encode i = c ∧ i.wf = true ∧ i.rowCondition view

theorem rxInstr_hasCommand {view : Nat → AsmState × Nat} {f : Nat} {b : Byte} {sym : RxSym} (hf : fits32 f = true)
    (hrow : sym.Row (view f).1 (view f).2 b) : (rxInstr sym f b).HasCommand view (rxCommand b f) := by
  cases sym with
  | endEsc => obtain ⟨rfl, hst⟩ := hrow; exact ⟨rfl, hf, hst⟩
  | endFin => obtain ⟨rfl, hst⟩ := hrow; exact ⟨rfl, hf, hst⟩
  | endSkip => obtain ⟨rfl, hst⟩ := hrow; exact ⟨rfl, hf, hst⟩
  | esc => obtain ⟨rfl, hst⟩ := hrow; exact ⟨rfl, hf, hst⟩
  | dataEsc => obtain ⟨hend, hst⟩ := hrow; exact ⟨rfl, wf_rxDataEsc_iff.mpr ⟨hf, hend⟩, hst⟩
  | data => obtain ⟨hend, hesc, hst⟩ := hrow; exact ⟨rfl, wf_rxData_iff.mpr ⟨hf, hend, hesc⟩, hst⟩

theorem txInstr_hasCommand (view : Nat → AsmState × Nat) (x : Byte) : (txInstr x).HasCommand view [x, 2] := by
  by_cases hend : x = Config.endByte
  · subst hend; exact ⟨rfl, rfl, trivial⟩
  by_cases hesc : x = Config.escByte
  · subst hesc; exact ⟨rfl, rfl, trivial⟩
  · rw [txInstr_lit hend hesc]
    exact ⟨rfl, wf_txLit_iff.mpr ⟨hend, hesc⟩, trivial⟩

theorem decodeRx_hasCommand {view : Nat → AsmState × Nat} {b : Byte} {ops : List Byte} {i : Instr}
    (h : decodeRx view b ops = .ok i) : i.HasCommand view (b :: 1 :: ops) := by
  unfold decodeRx at h
  split at h
  · rename_i b3 b2 b1 b0
    cases h
    have hcommand : rxCommand b (ofBe32 b3 b2 b1 b0) = [b, 1, b3, b2, b1, b0] := by rw [rxCommand, be32_ofBe32]
    exact hcommand ▸ rxInstr_hasCommand (fits32_ofBe32 ..) (classifyRx_row ..)
  · cases h

theorem decodeFlag_hasCommand (view : Nat → AsmState × Nat) {b : Byte} {ops : List Byte} {i : Instr}
    (h : decodeFlag b ops = .ok i) : i.HasCommand view (b :: 3 :: ops) := by
  unfold decodeFlag at h
  split at h
  · rename_i hb
    obtain ⟨rfl, rfl⟩ := decodeBare_eq_ok h
    subst hb
    exact ⟨rfl, rfl, trivial⟩
  · cases h

/-- One case for each operation code of R99; the reserved and the wide ones read as nothing. -/
theorem decodeOp_hasCommand (view : Nat → AsmState × Nat) {op : Byte} {ops : List Byte} {i : Instr}
    (h : decodeOp op ops = .ok i) : i.HasCommand view (opCommand op ops) := by
  have op_eq {k : Byte} (hk : op.toNat = k.toNat) : op = k := BitVec.eq_of_toNat_eq hk
  unfold decodeOp at h
  split at h
  case h_1 hop =>
    obtain ⟨f, x, hf, rfl, rfl⟩ := decodeAddbyte_eq_ok h
    exact op_eq (k := 0) hop ▸ ⟨rfl, hf, trivial⟩
  case h_2 hop =>
    obtain ⟨f, hf, rfl, rfl⟩ := decodeNumber_eq_ok h
    exact op_eq (k := 1) hop ▸ ⟨rfl, hf, trivial⟩
  case h_3 hop => cases h; exact op_eq (k := 2) hop ▸ ⟨rfl, rfl, trivial⟩
  case h_4 hop => cases h; exact op_eq (k := 3) hop ▸ ⟨rfl, rfl, trivial⟩
  case h_5 hop => cases h; exact op_eq (k := 4) hop ▸ ⟨rfl, rfl, trivial⟩
  case h_6 hop =>
    obtain ⟨t, ht, rfl, rfl⟩ := decodeNumber_eq_ok h
    exact op_eq (k := 5) hop ▸ ⟨rfl, ht, trivial⟩
  case h_7 hop =>
    obtain ⟨a, b, ha, hb, rfl, rfl⟩ := decodeStart_eq_ok h
    exact op_eq (k := 6) hop ▸ ⟨rfl, wf_start_iff.mpr ⟨ha, hb⟩, trivial⟩
  case h_8 hop =>
    obtain ⟨rfl, rfl⟩ := decodeBare_eq_ok h
    exact op_eq (k := 7) hop ▸ ⟨rfl, rfl, trivial⟩
  case h_9 => split at h <;> cases h

/-- Settles O2: an accepted command is an operation, a received byte, a byte to transmit or the flag, and each part of the
decoder reads an instruction that has the command. -/
theorem encodeOfDecodeIsTheCommand : Obligations.EncodeOfDecodeIsTheCommand := by
  intro view c i h
  obtain ⟨b, ops, ⟨rfl, hop⟩ | ⟨rfl, hrx⟩ | ⟨rfl, htx⟩ | ⟨rfl, hflag⟩⟩ := decode_eq_ok h
  · exact decodeOp_hasCommand view hop
  · exact decodeRx_hasCommand hrx
  · obtain ⟨rfl, rfl⟩ := decodeBare_eq_ok htx
    exact txInstr_hasCommand view b
  · exact decodeFlag_hasCommand view hflag

/-- Settles O3: the commands are closed terms, so the decoder evaluates on each. -/
theorem spelledOutCommandsDecode : Obligations.SpelledOutCommandsDecode := by
  unfold Obligations.SpelledOutCommandsDecode
  decide

/-- Operation codes 0x8 to 0xF are reserved (R100). -/
theorem decodeOp_reserved {op : Byte} (hlo : 8 ≤ op.toNat) (hhi : op.toNat ≤ 15) (ops : List Byte) :
    decodeOp op ops = .error .reservedOp := by
  unfold decodeOp
  split
  case h_9 => exact if_pos (by omega)
  all_goals omega

/-- Settles O4: a step of an idle foreground is refused by the decoder's reason (R100, O6). -/
theorem reservedOperationCodesAreRefused : Obligations.ReservedOperationCodesAreRefused := by
  intro op operands hlo hhi
  have hdecode (view : Nat → AsmState × Nat) : decode view (op :: 0 :: operands) = .error .reservedOp :=
    (decode_opCommand view op operands).trans (decodeOp_reserved hlo hhi operands)
  refine ⟨hdecode, fun s rest hidle hinputs => ?_⟩
  obtain ⟨-, herror⟩ := Machine.stepRunsTheDecodedInstruction s _ rest hidle hinputs
  exact herror _ (hdecode s.view)

end Sys2Proof
end

section
namespace Sys2Proof.Machine

/-! ### The wire bytes of one byte (R95) -/

theorem stuffByte_end : stuffByte Config.endByte = [0x7D, 0x5E] := by decide

theorem stuffByte_esc : stuffByte Config.escByte = [0x7D, 0x5D] := by decide

theorem stuffByte_lit {x : Byte} (hend : x ≠ Config.endByte) (hesc : x ≠ Config.escByte) : stuffByte x = [x] := by
  rw [stuffByte, classifyTx_lit hend hesc]

/-- A literal is transmitted where its row of R95 is selected. -/
theorem execTxLit_lit {x : Byte} (hend : x ≠ Config.endByte) (hesc : x ≠ Config.escByte) (s : State) :
    execTxLit x s = .next (s.returns (.bytes [x])) := by
  rw [execTxLit, if_pos (classifyTx_lit hend hesc), stuffByte_lit hend hesc]

/-- Settles O23: a transmit symbol returns the stuffed image of its byte, the flag its own byte (R95, log entry 7). -/
theorem transmitSymbolsMapBytes : Obligations.TransmitSymbolsMapBytes := by
  intro s
  refine ⟨?_, ?_, fun x hend hesc => execTxLit_lit hend hesc s, rfl⟩
  · rw [exec, execTxEsc7E, stuffByte_end]
  · rw [exec, execTxEsc7D, stuffByte_esc]

end Sys2Proof.Machine
end

section
namespace Sys2Proof.Machine

/-! ### The rows of the receive table as bytes fed to a Frame in progress (R135) -/

/-- A byte that meets a row's condition runs the row's arm (R94, R120). -/
theorem addByte_row {F : Frame} {b : Byte} {sym : RxSym} (hf : F.finished = false) (hrow : sym.Row F.state F.len b) :
    F.addByte b = F.arm sym b := by
  rw [addByte_arm hf, classifyRx_eq_iff.mpr hrow]

section Rows

variable {F : Frame} {b : Byte}

/-- Row RX.END.ESC (R122). -/
theorem addByte_endEsc (hf : F.finished = false) (hs : F.state = .escaping) (hb : b = Config.endByte) :
    F.addByte b = .ok ({ F with finished := true, error := true, errCode := .eFraming }, true) :=
  addByte_row (sym := .endEsc) hf ⟨hb, hs⟩

/-- The bytes of a payload and its checksum are two more than the payload's. -/
theorem Frame.Holds.len_eq {p : List Byte} {hi lo : Byte} (h : F.Holds (p ++ [hi, lo])) : F.len = p.length + 2 := by
  simpa using h.1

/-- Row RX.END.FIN where the received checksum is the payload's (R123, R131). -/
theorem addByte_endFin_match (hf : F.finished = false) (hs : F.state = .reading) (hb : b = Config.endByte)
    (hl : Config.minFinish ≤ F.len) {p : List Byte} {hi lo : Byte} (hp : F.Holds (p ++ [hi, lo]))
    (hc : crc16 p = hi ++ lo) :
    F.addByte b = .ok
      ({ F with crc := hi ++ lo, data := F.data.trim p.length, len := p.length, finished := true, error := false },
        true) :=
  (addByte_row (sym := .endFin) hf ⟨hb, hs, hl⟩).trans (finish_match hp.len_eq hp.2 hc)

/-- Row RX.END.FIN where the received checksum is another (R123, R131). -/
theorem addByte_endFin_mismatch (hf : F.finished = false) (hs : F.state = .reading) (hb : b = Config.endByte)
    (hl : Config.minFinish ≤ F.len) {p : List Byte} {hi lo : Byte} (hp : F.Holds (p ++ [hi, lo]))
    (hc : crc16 p ≠ hi ++ lo) :
    F.addByte b = .ok ({ F with crc := hi ++ lo, finished := true, error := true, errCode := .eCrc }, true) :=
  (addByte_row (sym := .endFin) hf ⟨hb, hs, hl⟩).trans (finish_mismatch hp.len_eq hp.2 hc)

/-- Row RX.END.SKIP (R124). -/
theorem addByte_endSkip (hf : F.finished = false) (hs : F.state = .reading) (hb : b = Config.endByte)
    (hl : F.len < Config.minFinish) : F.addByte b = .ok (F, false) :=
  addByte_row (sym := .endSkip) hf ⟨hb, hs, hl⟩

/-- Row RX.ESC (R125). -/
theorem addByte_esc (hf : F.finished = false) (hs : F.state = .reading) (hb : b = Config.escByte) :
    F.addByte b = .ok ({ F with state := .escaping }, false) :=
  addByte_row (sym := .esc) hf ⟨hb, hs⟩

/-- Row RX.DATA on a buffer with room (R126, R129). -/
theorem addByte_data_room (hf : F.finished = false) (hs : F.state = .reading) (hend : b ≠ Config.endByte)
    (hesc : b ≠ Config.escByte) (hl : F.len < Config.maxFrame) :
    F.addByte b = .ok ({ F with data := F.data.write F.len b, len := F.len + 1 }, false) :=
  (addByte_row (sym := .data) hf ⟨hend, hesc, hs⟩).trans (append_room hl b)

/-- Row RX.DATA on a full buffer (R126, R130). -/
theorem addByte_data_full (hf : F.finished = false) (hs : F.state = .reading) (hend : b ≠ Config.endByte)
    (hesc : b ≠ Config.escByte) (hl : F.len = Config.maxFrame) :
    F.addByte b = .ok ({ F with finished := true, error := true, errCode := .eTooBig }, true) :=
  (addByte_row (sym := .data) hf ⟨hend, hesc, hs⟩).trans (append_full hl b)

/-- Row RX.DATA.ESC on a buffer with room (R127, R129). -/
theorem addByte_dataEsc_room (hf : F.finished = false) (hs : F.state = .escaping) (hend : b ≠ Config.endByte)
    (hl : F.len < Config.maxFrame) :
    F.addByte b = .ok
      ({ F with state := .reading, data := F.data.write F.len (b ^^^ 0x20), len := F.len + 1 }, false) :=
  (addByte_row (sym := .dataEsc) hf ⟨hend, hs⟩).trans (append_room (F := { F with state := .reading }) hl _)

/-- Row RX.DATA.ESC on a full buffer: the mode is Reading already (R127, R130). -/
theorem addByte_dataEsc_full (hf : F.finished = false) (hs : F.state = .escaping) (hend : b ≠ Config.endByte)
    (hl : F.len = Config.maxFrame) :
    F.addByte b = .ok
      ({ F with state := .reading, finished := true, error := true, errCode := .eTooBig }, true) :=
  (addByte_row (sym := .dataEsc) hf ⟨hend, hs⟩).trans (append_full (F := { F with state := .reading }) hl _)

end Rows

/-! ### FA_ADDBYTE and the receive symbols write back what the byte made of the Frame -/

theorem feedFrame_of_addByte {f : Nat} {b : Byte} {s : State} {G : Frame} {t : Bool}
    (h : (s.frameAt f).addByte b = .ok (G, t)) : feedFrame f b s = .next (s.putFrame f G t) := by
  rw [feedFrame, h]

theorem runSymbol_of_addByte {sym : RxSym} {f : Nat} {b : Byte} {s : State} {G : Frame} {t : Bool}
    (hrow : sym.Row (s.frameAt f).state (s.frameAt f).len b) (h : (s.frameAt f).addByte b = .ok (G, t)) :
    runSymbol sym f b s = .next (s.putFrame f G t) :=
  (runSymbol_selected (classifyRx_eq_iff.mpr hrow)).trans (feedFrame_of_addByte h)

/-- A byte that leaves its Frame as it was adds its result alone. -/
theorem putFrame_self {s : State} (h : bankWf s.frames) (f : Nat) (t : Bool) :
    s.putFrame f (s.frameAt f) t = s.returns (.terminal t) := by
  rw [State.putFrame, setFrame_self h]

/-- Settles O9: the symbol's row is selected, as a payload of one byte and its checksum are three bytes, and Finish compares
(R131). -/
theorem endInReadingVerifiesTheChecksum : Obligations.EndInReadingVerifiesTheChecksum := by
  intro f s p hi lo hf hs hp1 hp
  have hl : Config.minFinish ≤ (s.frameAt f).len := hp.len_eq ▸ Nat.add_le_add_right hp1 2
  have hrow : RxSym.endFin.Row (s.frameAt f).state (s.frameAt f).len Config.endByte := ⟨rfl, hs, hl⟩
  constructor
  · intro hc
    exact runSymbol_of_addByte hrow (addByte_endFin_match hf hs rfl hl hp hc)
  · intro hc
    exact runSymbol_of_addByte hrow (addByte_endFin_mismatch hf hs rfl hl hp hc)

/-- Settles O14: one row of R135 after the other. -/
theorem addByteFollowsTheTransitionTable : Obligations.AddByteFollowsTheTransitionTable := by
  intro f b s hf
  refine ⟨fun hs hb hl => ?endSkip, fun p hi lo hs hb hl hp => ?endFin, fun hs hb => ?esc,
    fun hs hend hesc hl => ?dataRoom, fun hs hend hesc hl => ?dataFull, fun hs hb => ?endEsc,
    fun hs hend hl => ?dataEscRoom, fun hs hend hl => ?dataEscFull⟩
  case endSkip => exact feedFrame_of_addByte (addByte_endSkip hf hs hb hl)
  case endFin =>
    split
    · rw [Nat.sub_eq_of_eq_add hp.len_eq]
      exact feedFrame_of_addByte (addByte_endFin_match hf hs hb hl hp ‹_›)
    · exact feedFrame_of_addByte (addByte_endFin_mismatch hf hs hb hl hp ‹_›)
  case esc => exact feedFrame_of_addByte (addByte_esc hf hs hb)
  case dataRoom => exact feedFrame_of_addByte (addByte_data_room hf hs hend hesc hl)
  case dataFull => exact feedFrame_of_addByte (addByte_data_full hf hs hend hesc hl)
  case endEsc => exact feedFrame_of_addByte (addByte_endEsc hf hs hb)
  case dataEscRoom => exact feedFrame_of_addByte (addByte_dataEsc_room hf hs hend hl)
  case dataEscFull => exact feedFrame_of_addByte (addByte_dataEsc_full hf hs hend hl)

/-- Settles O8: row RX.END.ESC, which tests no length. -/
theorem endInEscapingAbortsWithFraming : Obligations.EndInEscapingAbortsWithFraming := by
  intro f s hf hs
  exact runSymbol_of_addByte (sym := .endEsc) ⟨rfl, hs⟩ (addByte_endEsc hf hs rfl)

/-- Settles O10: row RX.END.SKIP writes the Frame back as it was, which leaves a bank in canonical form alone. -/
theorem endWithFewBytesWritesNothing : Obligations.EndWithFewBytesWritesNothing := by
  intro f s hbank hf hs hl
  rw [← putFrame_self hbank f]
  exact runSymbol_of_addByte (sym := .endSkip) ⟨rfl, hs, hl⟩ (addByte_endSkip hf hs rfl hl)

/-- Settles O11: row RX.ESC, which tests no length. -/
theorem escapeByteSwitchesTheModeOnly : Obligations.EscapeByteSwitchesTheModeOnly := by
  intro f s hf hs
  exact runSymbol_of_addByte (sym := .esc) ⟨rfl, hs⟩ (addByte_esc hf hs rfl)

/-- Settles O12: row RX.DATA, with the two cases of Append (R129, R130). -/
theorem dataByteIsAppendedOrTooBig : Obligations.DataByteIsAppendedOrTooBig := by
  intro f b s hf hs hend hesc
  have hrow : RxSym.data.Row (s.frameAt f).state (s.frameAt f).len b := ⟨hend, hesc, hs⟩
  exact ⟨fun hl => runSymbol_of_addByte hrow (addByte_data_room hf hs hend hesc hl),
    fun hl => runSymbol_of_addByte hrow (addByte_data_full hf hs hend hesc hl)⟩

/-- Settles O13: row RX.DATA.ESC, with the two cases of Append on the Frame already back in Reading (R127, R128). -/
theorem escapedByteIsUnmaskedAndAppended : Obligations.EscapedByteIsUnmaskedAndAppended := by
  intro f b s hf hs hend
  have hrow : RxSym.dataEsc.Row (s.frameAt f).state (s.frameAt f).len b := ⟨hend, hs⟩
  exact ⟨fun hl => runSymbol_of_addByte hrow (addByte_dataEsc_room hf hs hend hl),
    fun hl => runSymbol_of_addByte hrow (addByte_dataEsc_full hf hs hend hl)⟩

end Sys2Proof.Machine
end

section
namespace Sys2Proof.Machine

/-! ### What the result and the error code of one byte say (R136, R137) -/

section OneByte

variable {F G : Frame} {b : Byte} {t : Bool}

theorem append_finished_eq (hf : F.finished = false) {v : Byte} (h : F.append v = .ok (G, t)) : G.finished = t := by
  obtain ⟨-, rfl, rfl⟩ | ⟨-, rfl, rfl⟩ := append_cases h
  · rfl
  · exact hf

theorem finish_finished_eq (h : F.finish = .ok (G, t)) : G.finished = t := by
  obtain ⟨rfl, hi, lo, p, -, -, ⟨-, rfl⟩ | ⟨-, rfl⟩⟩ := finish_cases h <;> rfl

/-- A byte's result is the Frame's `finished` after it, on any Frame (R137 (a)): one case for each row of R135. -/
theorem addByte_finished_eq (h : F.addByte b = .ok (G, t)) : G.finished = t := by
  obtain ⟨hf, ⟨-, -, rfl, rfl⟩ | ⟨-, -, -, hfin⟩ | ⟨-, -, -, rfl, rfl⟩ | ⟨-, -, rfl, rfl⟩ | ⟨-, -, ha⟩ | ⟨-, -, -, ha⟩⟩ :=
    addByte_cases h
  · rfl
  · exact finish_finished_eq hfin
  · exact hf
  · exact hf
  · exact append_finished_eq (F := { F with state := .reading }) hf ha
  · exact append_finished_eq hf ha

theorem append_len_le {v : Byte} (h : F.append v = .ok (G, t)) : F.len ≤ G.len := by
  obtain ⟨-, -, rfl⟩ | ⟨-, -, rfl⟩ := append_cases h
  · exact Nat.le_refl _
  · exact Nat.le_succ _

/-- Only Finish shortens the buffer, and only END in Reading runs it (R123). -/
theorem end_in_reading_of_len_lt (h : F.addByte b = .ok (G, t)) (hlt : G.len < F.len) :
    b = Config.endByte ∧ F.state = .reading := by
  obtain ⟨-, ⟨-, -, -, rfl⟩ | ⟨hb, hs, -, -⟩ | ⟨-, -, -, -, rfl⟩ | ⟨-, -, -, rfl⟩ | ⟨-, -, ha⟩ | ⟨-, -, -, ha⟩⟩ :=
    addByte_cases h
  · exact absurd hlt (Nat.lt_irrefl _)
  · exact ⟨hb, hs⟩
  · exact absurd hlt (Nat.lt_irrefl _)
  · exact absurd hlt (Nat.lt_irrefl _)
  · exact absurd hlt (Nat.not_lt.mpr (append_len_le (F := { F with state := .reading }) ha))
  · exact absurd hlt (Nat.not_lt.mpr (append_len_le ha))

/-- A shorter buffer is the trim of a successful Finish (R131). -/
theorem Frame.BufferStep.trimmed_of_len_lt {v : Byte} (h : F.BufferStep v G) (hlt : G.len < F.len) :
    G.finished = true ∧ G.error = false ∧ G.len + 2 = F.len := by
  obtain ⟨hl, -⟩ | ⟨hl, -⟩ | ⟨hl, -, hf, he⟩ := h
  · omega
  · omega
  · exact ⟨hf, he, hl⟩
/-- The code that the arm of a symbol can leave in a Frame without a recorded error (R136). -/
def Status.ReportedBy (c : Status) : RxSym → Prop
  | .endEsc => c = .eFraming
  | .endFin => c = .ok ∨ c = .eCrc
  | .endSkip => c = .ok
  | .esc => c = .ok
  | .dataEsc => c = .ok ∨ c = .eTooBig
  | .data => c = .ok ∨ c = .eTooBig

theorem append_errCode (hok : F.errCode = .ok) {v : Byte} (h : F.append v = .ok (G, t)) :
    G.errCode = .ok ∨ G.errCode = .eTooBig := by
  obtain ⟨-, -, rfl⟩ | ⟨-, -, rfl⟩ := append_cases h
  · exact .inr rfl
  · exact .inl hok

theorem finish_errCode (hok : F.errCode = .ok) (h : F.finish = .ok (G, t)) : G.errCode = .ok ∨ G.errCode = .eCrc := by
  obtain ⟨-, hi, lo, p, -, -, ⟨-, rfl⟩ | ⟨-, rfl⟩⟩ := finish_cases h
  · exact .inl hok
  · exact .inr rfl

theorem arm_errCode (hok : F.errCode = .ok) {sym : RxSym} (h : F.arm sym b = .ok (G, t)) : G.errCode.ReportedBy sym := by
  cases sym with
  | endEsc => cases h; rfl
  | endFin => exact finish_errCode hok h
  | endSkip => cases h; exact hok
  | esc => cases h; exact hok
  | dataEsc => exact append_errCode (F := { F with state := .reading }) hok h
  | data => exact append_errCode hok h

/-- An accepted byte reports what the arm of its row can report. -/
theorem addByte_errCode {sym : RxSym} (hrow : sym.Row F.state F.len b) (hok : F.errCode = .ok)
    (h : F.addByte b = .ok (G, t)) : G.errCode.ReportedBy sym :=
  arm_errCode hok ((addByte_row (addByte_cases h).1 hrow).symm.trans h)

end OneByte

/-- Settles O16: the result is `finished`, and a shorter buffer is the trim of a Finish, which END in Reading runs. -/
theorem addByteTerminatesExactlyWhenItFinishes : Obligations.AddByteTerminatesExactlyWhenItFinishes := by
  intro F G b t h
  refine ⟨by rw [addByte_finished_eq h], fun hlt => ?_⟩
  obtain ⟨v, -, hstep⟩ := addByte_bufferStep h
  obtain ⟨hf, he, hl⟩ := hstep.trimmed_of_len_lt hlt
  obtain ⟨hb, hs⟩ := end_in_reading_of_len_lt h hlt
  exact ⟨hf, he, hb, hs, hl⟩

/-- Settles O17: each clause is one row, or two rows taken together: END in Reading splits by the length, any other byte by
the mode. -/
theorem oneByteReportsAtMostOneError : Obligations.OneByteReportsAtMostOneError := by
  intro F G b t hok h
  refine ⟨fun hb hs => ?endEscaping, fun hb hs => ?endReading, fun hb hs => ?esc, fun hend hesc => ?data⟩
  case endEscaping => exact addByte_errCode (sym := .endEsc) ⟨hb, hs⟩ hok h
  case endReading =>
    by_cases hl : Config.minFinish ≤ F.len
    · exact addByte_errCode (sym := .endFin) ⟨hb, hs, hl⟩ hok h
    · exact .inl (addByte_errCode (sym := .endSkip) ⟨hb, hs, Nat.lt_of_not_le hl⟩ hok h)
  case esc => exact addByte_errCode (sym := .esc) ⟨hb, hs⟩ hok h
  case data =>
    cases hs : F.state with
    | escaping => exact addByte_errCode (sym := .dataEsc) ⟨hend, hs⟩ hok h
    | reading => exact addByte_errCode (sym := .data) ⟨hend, fun hb => hesc ⟨hb, hs⟩, hs⟩ hok h

end Sys2Proof.Machine
end

section
namespace Sys2Proof.Machine

/-! ### The instructions on a standalone Frame: what they refuse and what they leave (R121, R133, R237) -/

/-- An instruction that feeds a Frame is FA_ADDBYTE's meaning or a receive symbol's, for some byte. -/
theorem FeedsFrame.exec_eq {i : Instr} {f : Nat} (h : FeedsFrame i f) (s : State) :
    ∃ b, exec i s = feedFrame f b s ∨ ∃ sym, exec i s = runSymbol sym f b s := by
  obtain rfl | rfl | rfl | rfl | ⟨b, rfl⟩ | ⟨b, rfl⟩ | ⟨b, rfl⟩ := h
  · exact ⟨_, .inr ⟨.endEsc, rfl⟩⟩
  · exact ⟨_, .inr ⟨.endFin, rfl⟩⟩
  · exact ⟨_, .inr ⟨.endSkip, rfl⟩⟩
  · exact ⟨_, .inr ⟨.esc, rfl⟩⟩
  · exact ⟨b, .inr ⟨.dataEsc, rfl⟩⟩
  · exact ⟨b, .inr ⟨.data, rfl⟩⟩
  · exact ⟨b, .inl rfl⟩

/-- It answers by writing its Frame and adding the byte's result. -/
theorem FeedsFrame.exec_eq_next {i : Instr} {f : Nat} (h : FeedsFrame i f) {s t : State} (hexec : exec i s = .next t) :
    ∃ G u, t = s.putFrame f G u := by
  obtain ⟨b, heq | ⟨sym, heq⟩⟩ := h.exec_eq s
  · obtain ⟨G, u, -, ht⟩ := feedFrame_eq_next (heq ▸ hexec)
    exact ⟨G, u, ht⟩
  · obtain ⟨-, G, u, -, ht⟩ := runSymbol_eq_next (heq ▸ hexec)
    exact ⟨G, u, ht⟩

/-- Settles O15: `addByte` tests `finished` before the row is looked up (R121). -/
theorem addByteOnFinishedFrameIsRefused : Obligations.AddByteOnFinishedFrameIsRefused := by
  intro f s hf i hi
  obtain ⟨b, heq | ⟨sym, heq⟩⟩ := hi.exec_eq s
  · rw [heq, feedFrame_finished hf]
  · rw [heq, runSymbol_finished hf]

/-- Settles O20: either kind of instruction replaces the one Frame of its handle, and only a byte adds a result. -/
theorem frameOperationsTouchOneFrameOnly : Obligations.FrameOperationsTouchOneFrameOnly := by
  intro i f s t hi hexec
  obtain hfeeds | rfl := hi
  · obtain ⟨G, u, rfl⟩ := hfeeds.exec_eq_next hexec
    exact ⟨fun g hg => by rw [frameAt_putFrame, if_neg hg], rfl, .inr ⟨u, rfl⟩⟩
  · cases hexec
    exact ⟨fun g hg => by rw [frameAt_setFrame, if_neg hg], rfl, .inl rfl⟩

/-- A fresh Frame is left out of the bank, and leaving it out again changes nothing. -/
theorem setFrame_fresh_idem (s : State) (f : Nat) :
    (s.setFrame f Frame.fresh).setFrame f Frame.fresh = s.setFrame f Frame.fresh := by
  simp [State.setFrame, eraseKey, List.filter_filter]

/-- Settles O19: FA_RESET replaces the Frame by a fresh one. -/
theorem faResetGivesAFreshFrame : Obligations.FaResetGivesAFreshFrame := by
  intro f s
  refine ⟨s.setFrame f Frame.fresh, rfl, frameAt_setFrame_self s f _, rfl, ?_⟩
  rw [exec, execFaReset, reset_eq_fresh, setFrame_fresh_idem]

/-! ### From the invariant, which instructions are refused -/

/-- A byte is refused by a finished Frame alone (R121). -/
theorem feedFrame_eq_refused {s : State} {f : Nat} {b : Byte} {r : Refusal} (h : s.Inv)
    (hr : feedFrame f b s = .refused r) : r = .frameFinished ∧ (s.frameAt f).finished = true := by
  cases hf : (s.frameAt f).finished with
  | true => rw [feedFrame_finished hf] at hr; cases hr; exact ⟨rfl, rfl⟩
  | false =>
    obtain ⟨G, t, hb⟩ := addByte_answers (h.frameAt f) hf b
    rw [feedFrame_of_addByte hb] at hr
    cases hr

/-- A symbol whose row the Frame selects is refused as its byte is. -/
theorem runSymbol_eq_refused {s : State} {f : Nat} {b : Byte} {sym : RxSym} {r : Refusal} (h : s.Inv)
    (hrow : sym.Row (s.frameAt f).state (s.frameAt f).len b) (hr : runSymbol sym f b s = .refused r) :
    r = .frameFinished ∧ (s.frameAt f).finished = true := by
  rw [runSymbol_selected (classifyRx_eq_iff.mpr hrow)] at hr
  exact feedFrame_eq_refused h hr

/-- An idle foreground sees a worker only under a set flag (R36). -/
theorem State.Inv.background_running {s : State} (h : s.Inv) (hidle : s.foreground = .idle)
    (hbg : s.background = true) : s.lc.running = true := by
  obtain hr | ha : s.lc.running = true ∨ s.lc.workerAlive = true := by simpa [State.background] using hbg
  · exact hr
  · by_contra hr
    have hstop := h.exiting ha (by simpa using hr)
    exact absurd (hidle.symm.trans hstop) nofun

/-- READ of an idle foreground is refused beside the reader alone (R191). -/
theorem execRead_eq_refused {s : State} {timeout : Nat} {r : Refusal} (h : s.Inv) (hidle : s.foreground = .idle)
    (hr : execRead timeout s = .refused r) : r = .readWhileReaderRuns ∧ s.lc.running = true := by
  rw [execRead, whenIdle_idle hidle] at hr
  split at hr
  · cases hr
    exact ⟨rfl, h.background_running hidle ‹_›⟩
  · rename_i hbg
    obtain ⟨t, ht⟩ := readIteration_answers (h.beginRead (by simpa using hbg) timeout).lc
    rw [ht] at hr
    cases hr

/-- The refusals of an instruction that the spec names (R121, R191). -/
def SpecRefuses (i : Instr) (s : State) (r : Refusal) : Prop :=
  (r = .frameFinished ∧ ∃ f, FeedsFrame i f ∧ (s.frameAt f).finished = true) ∨
    (r = .readWhileReaderRuns ∧ s.lc.running = true ∧ ∃ n, i = .read n)

/-- An instruction that feeds a Frame meeting its row's condition is refused by a finished Frame alone. -/
theorem FeedsFrame.exec_eq_refused {i : Instr} {f : Nat} (hi : FeedsFrame i f) {s : State} {r : Refusal} (h : s.Inv)
    (hwf : i.wf = true) (hrow : i.rowCondition s.view) (hr : exec i s = .refused r) : SpecRefuses i s r := by
  suffices hfin : r = .frameFinished ∧ (s.frameAt f).finished = true from .inl ⟨hfin.1, f, hi, hfin.2⟩
  obtain rfl | rfl | rfl | rfl | ⟨b, rfl⟩ | ⟨b, rfl⟩ | ⟨b, rfl⟩ := hi
  · exact runSymbol_eq_refused (sym := .endEsc) h ⟨rfl, hrow⟩ hr
  · exact runSymbol_eq_refused (sym := .endFin) h ⟨rfl, hrow⟩ hr
  · exact runSymbol_eq_refused (sym := .endSkip) h ⟨rfl, hrow⟩ hr
  · exact runSymbol_eq_refused (sym := .esc) h ⟨rfl, hrow⟩ hr
  · obtain ⟨-, hend⟩ := wf_rxDataEsc_iff.mp hwf
    exact runSymbol_eq_refused (sym := .dataEsc) h ⟨hend, hrow⟩ hr
  · obtain ⟨-, hend, hesc⟩ := wf_rxData_iff.mp hwf
    exact runSymbol_eq_refused (sym := .data) h ⟨hend, hesc, hrow⟩ hr
  · exact feedFrame_eq_refused h hr

/-- From the invariant and an idle foreground, an instruction of the block is refused only as the spec says. -/
theorem exec_eq_refused {i : Instr} {s : State} {r : Refusal} (h : s.Inv) (hidle : s.foreground = .idle)
    (hwf : i.wf = true) (hrow : i.rowCondition s.view) (hr : exec i s = .refused r) : SpecRefuses i s r := by
  cases i with
  | rxEndEsc f | rxEndFin f | rxEndSkip f | rxEsc f | rxDataEsc f b | rxData f b | faAddbyte f b =>
    exact FeedsFrame.exec_eq_refused (f := f) (by simp [FeedsFrame]) h hwf hrow hr
  | txEsc7E | txEsc7D | txFlag | faReset f | crc16 x | encode p => cases hr
  | txLit x =>
    obtain ⟨hend, hesc⟩ := wf_txLit_iff.mp hwf
    exact absurd ((execTxLit_lit hend hesc s).symm.trans hr) nofun
  | send p => exact absurd ((whenIdle_idle hidle _).symm.trans hr) nofun
  | read timeout =>
    obtain ⟨hreason, hrunning⟩ := execRead_eq_refused h hidle hr
    exact .inr ⟨hreason, hrunning, timeout, rfl⟩
  | start a b =>
    rw [exec, execStart, whenIdle_idle hidle] at hr
    split at hr <;> cases hr
  | stop =>
    rw [exec, execStop, whenIdle_idle hidle] at hr
    split at hr <;> cases hr

/-- A refused step took a command of an idle foreground (R8). -/
theorem fetchOp_of_step_refused {s : State} {r : Refusal} (h : s.Inv) (hr : step s = .refused r) :
    ∃ c u, fetchOp s = some (c, u) := by
  cases hf : fetchOp s with
  | none =>
    obtain ⟨t, ht⟩ := agentTurn_answers h.lc
    rw [step_of_no_fetch hf, ht] at hr
    cases hr
  | some cu => exact ⟨cu.1, cu.2, rfl⟩

/-- Settles O60: the command taken is no instruction, or an instruction of the block that meets its row's condition (O2), so
refused only as the spec says. -/
theorem stepRefusesOnlyWhatTheSpecRefuses : Obligations.StepRefusesOnlyWhatTheSpecRefuses := by
  intro s r h hr
  obtain ⟨c, u, hfetch⟩ := fetchOp_of_step_refused h hr
  obtain ⟨hidle, rest, hinputs, rfl⟩ := fetchOp_eq_some hfetch
  refine ⟨c, rest, hidle, hinputs, ?_⟩
  obtain ⟨hok, herror⟩ := stepRunsTheDecodedInstruction s c rest hidle hinputs
  cases hdecode : decode s.view c with
  | error e =>
    rw [herror e hdecode] at hr
    cases hr
    exact .inl ⟨e, rfl, rfl⟩
  | ok i =>
    rw [hok i hdecode] at hr
    obtain ⟨-, hwf, hrow⟩ := encodeOfDecodeIsTheCommand s.view c i hdecode
    have hu : ({ s with inputs := rest } : State).Inv := h.of_same rfl h.lc rfl rfl rfl
    have hspec := exec_eq_refused hu hidle hwf hrow hr
    exact .inr ⟨i, rfl, hspec⟩

end Sys2Proof.Machine
end

section
/-! PROOFS. The checksum function: the bit-by-bit algorithm, and the properties that follow from every shift being undone (O21,
O22). Two facts carry R157 (c) and (d): the register and the byte of an update can each be told from its result, and eight shifts
of a byte in the low half only move it to the high half. -/

namespace Sys2Proof.Machine

/-! ### The bit-by-bit algorithm (R152) -/

theorem exec_crc16 (x : List Byte) (s : State) : exec (.crc16 x) s = .next (s.returns (.crc (crc16 x))) := rfl

theorem crcShift_eq : crcShift = fun v : Word16 => if v.getLsbD 15 then (v <<< 1) ^^^ 0x1021 else v <<< 1 := by
  funext v
  rw [crcShift, BitVec.msb_eq_getLsbD_last]

theorem crcShifts_eq_iterate (n : Nat) : crcShifts n = crcShift^[n] := by
  induction n with
  | zero => rfl
  | succ n ih =>
    funext r
    rw [crcShifts, ih, Function.iterate_succ_apply]

/-- Settles O21: the model's shift is the algorithm's, and its eight shifts are the iteration. -/
theorem crc16RunsTheBitwiseAlgorithm : Obligations.Crc16RunsTheBitwiseAlgorithm := by
  intro x s
  have hupdate : crcUpdate = fun (r : Word16) (b : Byte) => crcShift^[8] (r ^^^ (b.setWidth 16 <<< 8)) := by
    funext r b
    rw [crcUpdate, crcShifts_eq_iterate, crcLoad]
  rw [exec_crc16, crc16, hupdate, crcShift_eq, crcStart]

/-! ### What an update determines -/

/-- The polynomial is odd, so the low bit of the result tells the bit shifted out. -/
theorem getLsbD_zero_crcShift (r : Word16) : (crcShift r).getLsbD 0 = r.msb := by
  rw [crcShift]
  split <;> simp [*]

theorem crcShift_injective : Function.Injective crcShift := by
  intro r r' h
  have hmsb : r.msb = r'.msb := by rw [← getLsbD_zero_crcShift, h, getLsbD_zero_crcShift]
  have hshift : r <<< 1 = r' <<< 1 := by
    simp only [crcShift, hmsb] at h
    split at h
    · exact (BitVec.xor_left_inj _).mp h
    · exact h
  ext i hi
  by_cases htop : i = 15
  · subst htop
    simpa [BitVec.msb_eq_getLsbD_last] using hmsb
  · have hbit := congrArg (·.getLsbD (i + 1)) hshift
    have hlt : i + 1 < 16 := by omega
    simpa [hlt] using hbit

theorem crcShifts_injective (n : Nat) : Function.Injective (crcShifts n) := by
  rw [crcShifts_eq_iterate]
  exact crcShift_injective.iterate n

/-- For a given byte, the register after an update tells the register before it. -/
theorem crcUpdate_injective_register (b : Byte) : Function.Injective (crcUpdate · b) := by
  intro r r' h
  exact (BitVec.xor_left_inj _).mp (crcShifts_injective 8 h)

/-- From a given register, the register after an update tells the byte. -/
theorem crcUpdate_injective_byte (r : Word16) : Function.Injective (crcUpdate r) := by
  intro b b' h
  have hload : b.setWidth 16 <<< 8 = b'.setWidth 16 <<< 8 := (BitVec.xor_right_inj _).mp (crcShifts_injective 8 h)
  apply BitVec.eq_of_getLsbD_eq
  intro i hi
  have hbit := congrArg (·.getLsbD (i + 8)) hload
  have hlt : i + 8 < 16 := by omega
  simpa [hlt] using hbit

theorem foldl_crcUpdate_injective (v : List Byte) : Function.Injective (v.foldl crcUpdate) := by
  induction v with
  | nil => exact Function.injective_id
  | cons b v ih => exact ih.comp (crcUpdate_injective_register b)

/-- Sequences of equal length that differ in one byte have different checksums. -/
theorem crc16_ne_of_one_byte {b b' : Byte} (h : b ≠ b') (u v : List Byte) :
    crc16 (u ++ [b] ++ v) ≠ crc16 (u ++ [b'] ++ v) := by
  simp only [crc16_append _ v, crc16_concat]
  exact fun heq => h (crcUpdate_injective_byte _ (foldl_crcUpdate_injective v heq))

/-! ### The residue (R157 (c)) -/

/-- While no 1 leaves the register, the shifts only move it up. -/
theorem crcShifts_eq_shiftLeft (n : Nat) (r : Word16) (h : r.toNat * 2 ^ n < 2 ^ 16) : crcShifts n r = r <<< n := by
  induction n generalizing r with
  | zero => simp [crcShifts]
  | succ n ih =>
    have hpow : r.toNat * 2 * 2 ^ n < 2 ^ 16 := by rwa [Nat.mul_assoc, ← Nat.pow_succ']
    have hsmall : r.toNat * 2 < 2 ^ 16 := lt_of_le_of_lt (Nat.le_mul_of_pos_right _ (Nat.two_pow_pos n)) hpow
    have hmsb : r.msb = false := by
      rw [BitVec.msb_eq_false_iff_two_mul_lt]
      omega
    have hnat : (r <<< 1).toNat = r.toNat * 2 := by
      rw [BitVec.toNat_shiftLeft, Nat.shiftLeft_eq, pow_one, Nat.mod_eq_of_lt hsmall]
    rw [crcShifts, crcShift, hmsb, if_neg Bool.false_ne_true, ih _ (by rwa [hnat]), ← BitVec.shiftLeft_add, Nat.add_comm]

/-- The last eight bits of the register come to its high half unchanged. -/
theorem crcShifts_setWidth (b : Byte) : crcShifts 8 (b.setWidth 16) = b.setWidth 16 <<< 8 := by
  apply crcShifts_eq_shiftLeft
  have hb : (b.setWidth 16).toNat = b.toNat := BitVec.toNat_setWidth_of_le (by decide)
  have := b.isLt
  omega

/-- Two bytes as a checksum are the low byte with the high one loaded as an update loads it. -/
theorem crcOfBytes_eq_crcLoad (hi lo : Byte) : crcOfBytes hi lo = crcLoad (lo.setWidth 16) hi := by
  apply BitVec.eq_of_getLsbD_eq
  intro i _
  rw [getLsbD_crcOfBytes, crcLoad]
  split
  · simp [*]
  · have hlo : lo.getLsbD i = false := BitVec.getLsbD_of_ge lo i (by omega)
    simp [*]

/-- Loading a byte twice cancels it. -/
theorem crcLoad_eq_iff (r r' : Word16) (b : Byte) : crcLoad r b = r' ↔ r = crcLoad r' b := by
  unfold crcLoad
  constructor <;> rintro rfl <;> rw [BitVec.xor_assoc, BitVec.xor_self, BitVec.xor_zero]

/-- Two updates clear the register exactly when they load its own two bytes. -/
theorem crcUpdate_crcUpdate_eq_zero_iff (r : Word16) (hi lo : Byte) :
    crcUpdate (crcUpdate r hi) lo = 0 ↔ r = crcOfBytes hi lo := by
  calc crcUpdate (crcUpdate r hi) lo = 0
      ↔ crcLoad (crcUpdate r hi) lo = 0 := (crcShifts_injective 8).eq_iff' rfl
    _ ↔ crcUpdate r hi = lo.setWidth 16 <<< 8 := BitVec.xor_eq_zero_iff
    _ ↔ crcLoad r hi = lo.setWidth 16 := (crcShifts_injective 8).eq_iff' (crcShifts_setWidth lo)
    _ ↔ r = crcOfBytes hi lo := by rw [crcLoad_eq_iff, crcOfBytes_eq_crcLoad]

theorem crc16_append_pair_eq_zero_iff (s : List Byte) (hi lo : Byte) :
    crc16 (s ++ [hi, lo]) = 0 ↔ crc16 s = crcOfBytes hi lo := by
  rw [crc16_append]
  exact crcUpdate_crcUpdate_eq_zero_iff _ hi lo

/-- A payload followed by its checksum has residue 0. -/
theorem crc16_append_crcBytes (p : List Byte) : crc16 (p ++ crcBytes (crc16 p)) = 0 :=
  (crc16_append_pair_eq_zero_iff p _ _).mpr (crcOfBytes_crcBytes _).symm

/-! ### The properties of R157 -/

/-- Flipping one bit changes a byte. -/
theorem ne_xor_bit (b : Byte) {k : Nat} (h : k < 8) : b ≠ b ^^^ ((1 : Byte) <<< k) := by
  intro heq
  have hbit := congrArg (·.getLsbD k) heq
  simp [h] at hbit

/-- Settles O22: a bit flip changes one byte, so it changes the checksum of a sequence, and the residue of a payload with its
checksum, which was 0. -/
theorem crc16Properties : Obligations.Crc16Properties := by
  refine ⟨crc16_nil, by decide +kernel, by decide +kernel, ?_, ?_, ?_⟩
  · intro s hi lo
    rw [eq_comm (a := [hi, lo]), ← crcOfBytes_eq_iff]
    exact crc16_append_pair_eq_zero_iff s hi lo
  · intro u v b k hk
    exact crc16_ne_of_one_byte (ne_xor_bit b hk) u v
  · intro p u v q b hi lo k hk hsent hflipped hmatch
    have hres : crc16 (u ++ [b] ++ v) = 0 := hsent ▸ crc16_append_crcBytes p
    have hres' : crc16 (u ++ [b ^^^ ((1 : Byte) <<< k)] ++ v) = 0 :=
      hflipped ▸ (crc16_append_pair_eq_zero_iff q hi lo).mpr hmatch
    exact crc16_ne_of_one_byte (ne_xor_bit b hk) u v (hres.trans hres'.symm)

end Sys2Proof.Machine
end

section
/-! PROOFS. The wire encoder and the decoding of what it builds (O24 to O31). The idea is a relation between a frame's bytes
and the bytes they carry, wide enough to survive a bit flip, and one induction over it that feeds them to a Frame. -/

namespace Sys2Proof.Machine

/-! ### The stuffed image (R160 to R163) -/

theorem stuffByte_eq (x : Byte) :
    stuffByte x = if x = 0x7E then [0x7D, 0x5E] else if x = 0x7D then [0x7D, 0x5D] else [x] := by
  split
  case isTrue hend => rw [hend]; exact stuffByte_end
  case isFalse hend =>
    split
    case isTrue hesc => rw [hesc]; exact stuffByte_esc
    case isFalse hesc => exact stuffByte_lit hend hesc

/-- Settles O24: the statement writes out R161 to R163, and `stuffByte_eq` is its table. -/
theorem encodeBuildsTheWireFrame : Obligations.EncodeBuildsTheWireFrame := by
  intro p s
  rw [exec, execEncode, wireEncode, stuff, withCrc, crcBytes, funext stuffByte_eq]

@[simp] theorem stuff_nil : stuff [] = [] := rfl

theorem stuff_cons (x : Byte) (q : List Byte) : stuff (x :: q) = stuffByte x ++ stuff q := List.flatMap_cons

theorem stuff_cons_end (q : List Byte) : stuff (Config.endByte :: q) = 0x7D :: 0x5E :: stuff q := by
  rw [stuff_cons, stuffByte_end]; rfl

theorem stuff_cons_esc (q : List Byte) : stuff (Config.escByte :: q) = 0x7D :: 0x5D :: stuff q := by
  rw [stuff_cons, stuffByte_esc]; rfl

theorem stuff_cons_lit {x : Byte} (hend : x ≠ Config.endByte) (hesc : x ≠ Config.escByte) (q : List Byte) :
    stuff (x :: q) = x :: stuff q := by
  rw [stuff_cons, stuffByte_lit hend hesc]; rfl

/-- Induction over a payload along the three rows of R95, with the stuffed image each row adds. -/
theorem stuff_induction {P : List Byte → List Byte → Prop} (nil : P [] [])
    (endRow : ∀ q s, P q s → P (Config.endByte :: q) (0x7D :: 0x5E :: s))
    (escRow : ∀ q s, P q s → P (Config.escByte :: q) (0x7D :: 0x5D :: s))
    (litRow : ∀ x q s, x ≠ Config.endByte → x ≠ Config.escByte → P q s → P (x :: q) (x :: s)) (q : List Byte) :
    P q (stuff q) := by
  induction q with
  | nil => exact nil
  | cons x q ih =>
    by_cases hend : x = Config.endByte
    · rw [hend, stuff_cons_end]; exact endRow q _ ih
    · by_cases hesc : x = Config.escByte
      · rw [hesc, stuff_cons_esc]; exact escRow q _ ih
      · rw [stuff_cons_lit hend hesc]; exact litRow x q _ hend hesc ih

@[simp] theorem withCrc_length (p : List Byte) : (withCrc p).length = p.length + 2 := by simp [withCrc]

theorem withCrc_length_le {p : List Byte} (hp : p.length ≤ Config.maxPayload) :
    (withCrc p).length ≤ Config.maxFrame := by
  rw [withCrc_length]
  exact Nat.add_le_add_right hp 2

theorem wireEncode_eq (p : List Byte) : wireEncode p = Config.endByte :: (stuff (withCrc p) ++ [Config.endByte]) := rfl

/-! ### No raw reserved byte (R164) -/

/-- Every ESC is followed by the second byte of one of the encoder's two escape pairs. -/
def EscapesPaired (s : List Byte) : Prop :=
  ∀ i : Nat, s[i]? = some (0x7D : Byte) → s[i + 1]? = some (0x5E : Byte) ∨ s[i + 1]? = some (0x5D : Byte)

theorem EscapesPaired.lit {x : Byte} {s : List Byte} (hesc : x ≠ 0x7D) (h : EscapesPaired s) : EscapesPaired (x :: s)
  | 0, hi => absurd (Option.some.inj hi) hesc
  | i + 1, hi => h i hi

theorem EscapesPaired.pair {c : Byte} {s : List Byte} (hc : c = 0x5E ∨ c = 0x5D) (h : EscapesPaired s) :
    EscapesPaired (0x7D :: c :: s)
  | 0, _ => hc.imp (congrArg some) (congrArg some)
  | i + 1, hi => (h.lit (by rcases hc with rfl | rfl <;> decide)) i hi

theorem stuff_noRawReserved (q : List Byte) : (0x7E : Byte) ∉ stuff q ∧ EscapesPaired (stuff q) := by
  refine stuff_induction (P := fun _ s => (0x7E : Byte) ∉ s ∧ EscapesPaired s) ⟨by simp, nofun⟩ ?_ ?_ ?_ q
  · exact fun _ _ ⟨hend, hpaired⟩ => ⟨by simpa using hend, hpaired.pair (.inl rfl)⟩
  · exact fun _ _ ⟨hend, hpaired⟩ => ⟨by simpa using hend, hpaired.pair (.inr rfl)⟩
  · exact fun x _ _ hxend hxesc ⟨hend, hpaired⟩ =>
      ⟨List.not_mem_cons_of_ne_of_not_mem hxend.symm hend, hpaired.lit hxesc⟩

/-- Settles O25: the body between the delimiters is a stuffed image. -/
theorem encodedFrameHoldsNoRawReservedByte : Obligations.EncodedFrameHoldsNoRawReservedByte :=
  fun p => ⟨stuff (withCrc p), rfl, stuff_noRawReserved (withCrc p)⟩

/-! ### The length (R165) -/

/-- A byte the encoder escapes (R95), in the form O26 counts it. -/
abbrev reservedByte (x : Byte) : Bool := x == 0x7E || x == 0x7D

theorem stuffByte_length (x : Byte) : (stuffByte x).length = 1 + if reservedByte x then 1 else 0 := by
  by_cases hend : x = Config.endByte
  · rw [hend, stuffByte_end]; rfl
  · by_cases hesc : x = Config.escByte
    · rw [hesc, stuffByte_esc]; rfl
    · rw [stuffByte_lit hend hesc, if_neg (by simpa using ⟨hend, hesc⟩)]; rfl

theorem stuff_length (q : List Byte) : (stuff q).length = q.length + q.countP reservedByte := by
  induction q with
  | nil => rfl
  | cons x q ih =>
    rw [stuff_cons, List.length_append, stuffByte_length, ih, List.length_cons, List.countP_cons]
    omega

/-- Settles O26: at most all the bytes of payload and checksum are reserved. -/
theorem encodedLengthCountsTheEscapes : Obligations.EncodedLengthCountsTheEscapes := by
  intro p
  have hcount := List.countP_le_length (p := reservedByte) (l := withCrc p)
  have hlen : (wireEncode p).length = (stuff (withCrc p)).length + 2 := by simp [wireEncode_eq]
  rw [stuff_length, withCrc_length] at hlen
  rw [withCrc_length] at hcount
  have hsum : (wireEncode p).length = p.length + 4 + (withCrc p).countP reservedByte := by omega
  exact ⟨hsum, by omega, by omega⟩

/-! ### What a frame's bytes carry -/

/-- The bytes between two delimiters carry `q`: each byte as itself, where it is not reserved, or as an escape pair. A
stuffed image is one (`wireImage_stuff`). The decoder takes any byte but END after ESC (R127), so a flip in a pair leaves one
too. -/
inductive WireImage : List Byte → List Byte → Prop
  | nil : WireImage [] []
  | lit {x : Byte} {s q : List Byte} (hend : x ≠ Config.endByte) (hesc : x ≠ Config.escByte) (h : WireImage s q) :
      WireImage (x :: s) (x :: q)
  | pair {c : Byte} {s q : List Byte} (hend : c ≠ Config.endByte) (h : WireImage s q) :
      WireImage (Config.escByte :: c :: s) (maskByte c :: q)

theorem wireImage_stuff (q : List Byte) : WireImage (stuff q) q :=
  stuff_induction (P := fun q s => WireImage s q) .nil
    (fun _ _ ih => .pair (c := 0x5E) (by decide) ih)
    (fun _ _ ih => .pair (c := 0x5D) (by decide) ih)
    (fun _ _ _ hend hesc ih => .lit hend hesc ih) q

/-- What is carried can be told from the bytes: a literal is no ESC, so the two kinds do not meet. -/
theorem WireImage.content_unique {s q q' : List Byte} (h : WireImage s q) (h' : WireImage s q') : q = q' := by
  induction h generalizing q' with
  | nil => cases h'; rfl
  | lit _ hesc _ ih =>
    cases h' with
    | lit _ _ h' => rw [ih h']
    | pair _ _ => exact absurd rfl hesc
  | pair _ _ ih =>
    cases h' with
    | lit _ hesc _ => exact absurd rfl hesc
    | pair _ h' => rw [ih h']

/-- Settles O27: the frame tells its stuffed image, that the payload with its checksum, and the checksum has two bytes. -/
theorem encodeIsInjective : Obligations.EncodeIsInjective := by
  intro p q h
  have hstuff : stuff (withCrc p) = stuff (withCrc q) := List.append_cancel_right (List.cons.inj h).2
  have hcontent : withCrc p = withCrc q :=
    (wireImage_stuff (withCrc p)).content_unique (hstuff ▸ wireImage_stuff (withCrc q))
  exact (List.append_inj' hcontent rfl).1

theorem maskByte_injective : Function.Injective maskByte := fun _ _ h => (BitVec.xor_left_inj _).mp h

/-- Changing one byte of the image, when neither the old nor the new one is reserved, changes one byte of what is carried:
the byte itself, or the one whose escape pair it ends. -/
theorem WireImage.replace {u v q : List Byte} {b b' : Byte} (h : WireImage (u ++ [b] ++ v) q) (hne : b ≠ b')
    (hesc : b ≠ Config.escByte) (hend' : b' ≠ Config.endByte) (hesc' : b' ≠ Config.escByte) :
    ∃ q₁ x x' q₂, x ≠ x' ∧ q = q₁ ++ [x] ++ q₂ ∧ WireImage (u ++ [b'] ++ v) (q₁ ++ [x'] ++ q₂) := by
  generalize hs : u ++ [b] ++ v = s at h
  induction h generalizing u with
  | nil => simp at hs
  | @lit y s q hyend hyesc h ih =>
    match u, hs with
    | [], hs =>
      obtain ⟨rfl, rfl⟩ := List.cons.inj hs
      exact ⟨[], b, b', q, hne, rfl, .lit hend' hesc' h⟩
    | a :: u, hs =>
      obtain ⟨rfl, htail⟩ := List.cons.inj hs
      obtain ⟨q₁, x, x', q₂, hx, rfl, himage⟩ := ih htail
      exact ⟨a :: q₁, x, x', q₂, hx, rfl, .lit hyend hyesc himage⟩
  | @pair c s q hcend h ih =>
    match u, hs with
    | [], hs => exact absurd (List.cons.inj hs).1 hesc
    | [a], hs =>
      obtain ⟨ha, hpair⟩ := List.cons.inj hs
      obtain ⟨rfl, rfl⟩ := List.cons.inj hpair
      exact ⟨[], maskByte b, maskByte b', q, maskByte_injective.ne hne, rfl, ha ▸ .pair hend' h⟩
    | a :: c' :: u, hs =>
      obtain ⟨ha, hpair⟩ := List.cons.inj hs
      obtain ⟨rfl, htail⟩ := List.cons.inj hpair
      obtain ⟨q₁, x, x', q₂, hx, rfl, himage⟩ := ih htail
      exact ⟨maskByte c' :: q₁, x, x', q₂, hx, rfl, ha ▸ .pair hcend himage⟩

/-! ### A Frame that receives (R126 to R130) -/

/-- The Frame is in progress, outside an escape pair, and holds the bytes `q`. -/
structure Frame.Receiving (F : Frame) (q : List Byte) : Prop where
  unfinished : F.finished = false
  mode : F.state = .reading
  holds : F.Holds q

theorem fresh_receiving : Frame.fresh.Receiving [] := ⟨rfl, rfl, rfl, rfl⟩

/-- A byte appended extends what the buffer holds (R129). -/
theorem Frame.Holds.append {F G : Frame} {q : List Byte} (h : F.Holds q) {v : Byte} (hd : G.data = F.data.write F.len v)
    (hl : G.len = F.len + 1) : G.Holds (q ++ [v]) := by
  obtain ⟨hlen, hread⟩ := h
  refine ⟨by simp [hl, hlen], ?_⟩
  rw [hd, hl]
  exact Memory.readRange_write_end hread v

namespace Frame.Receiving

variable {F : Frame} {q : List Byte}

theorem feed_lit (h : F.Receiving q) (hl : q.length < Config.maxFrame) {x : Byte} (hend : x ≠ Config.endByte)
    (hesc : x ≠ Config.escByte) : ∃ G : Frame, (∀ s, F.feed (x :: s) = G.feed s) ∧ G.Receiving (q ++ [x]) :=
  ⟨_, feed_cons_false (addByte_data_room h.unfinished h.mode hend hesc (h.holds.1 ▸ hl)),
    h.unfinished, h.mode, h.holds.append rfl rfl⟩

theorem feed_esc (h : F.Receiving q) (s : List Byte) :
    F.feed (Config.escByte :: s) = ({ F with state := .escaping } : Frame).feed s :=
  feed_cons_false (addByte_esc h.unfinished h.mode rfl) s

theorem feed_pair (h : F.Receiving q) (hl : q.length < Config.maxFrame) {c : Byte} (hend : c ≠ Config.endByte) :
    ∃ G : Frame, (∀ s, F.feed (Config.escByte :: c :: s) = G.feed s) ∧ G.Receiving (q ++ [maskByte c]) :=
  have hbyte := addByte_dataEsc_room (F := { F with state := .escaping }) h.unfinished rfl hend (h.holds.1 ▸ hl)
  ⟨_, fun s => (h.feed_esc _).trans (feed_cons_false hbyte s), h.unfinished, rfl, h.holds.append rfl rfl⟩

/-- The 1025th byte as a literal (R130). -/
theorem feed_lit_full (h : F.Receiving q) (hl : q.length = Config.maxFrame) {x : Byte} (hend : x ≠ Config.endByte)
    (hesc : x ≠ Config.escByte) (s : List Byte) : ∃ G,
      F.feed (x :: s) = .ok (G, true, s) ∧ G.error = true ∧ G.errCode = .eTooBig :=
  ⟨_, feed_cons_true (addByte_data_full h.unfinished h.mode hend hesc (h.holds.1.trans hl)) s, rfl, rfl⟩

/-- The 1025th byte as an escape pair (R130). -/
theorem feed_pair_full (h : F.Receiving q) (hl : q.length = Config.maxFrame) {c : Byte} (hend : c ≠ Config.endByte)
    (s : List Byte) :
    ∃ G, F.feed (Config.escByte :: c :: s) = .ok (G, true, s) ∧ G.error = true ∧ G.errCode = .eTooBig :=
  have hbyte := addByte_dataEsc_full (F := { F with state := .escaping }) h.unfinished rfl hend (h.holds.1.trans hl)
  ⟨_, (h.feed_esc _).trans (feed_cons_true hbyte s), rfl, rfl⟩

/-- The delimiter after a payload and its checksum (R131). -/
theorem addByte_end_match {p : List Byte} (h : F.Receiving (withCrc p)) (hp : 1 ≤ p.length) :
    ∃ G, F.addByte Config.endByte = .ok (G, true) ∧ G.error = false ∧ G.Holds p := by
  obtain ⟨hlen, hread⟩ := h.holds
  have hl : Config.minFinish ≤ F.len := by rw [hlen, withCrc_length]; exact Nat.add_le_add_right hp 2
  refine ⟨_, addByte_endFin_match h.unfinished h.mode rfl hl h.holds (crcOfBytes_crcBytes _).symm, rfl, rfl, ?_⟩
  rw [Memory.readRange_trim]
  rw [hlen, withCrc, List.length_append] at hread
  exact (Memory.readRange_append hread).1

/-- The delimiter after at least three bytes whose residue is not 0 (R131, R157 (c)). -/
theorem addByte_end_mismatch (h : F.Receiving q) (hq : 3 ≤ q.length) (hc : crc16 q ≠ 0) :
    ∃ G, F.addByte Config.endByte = .ok (G, true) ∧ G.error = true ∧ G.errCode = .eCrc := by
  have hl : Config.minFinish ≤ F.len := h.holds.1 ▸ hq
  obtain ⟨hi, lo, htail⟩ := List.length_eq_two.mp (show (q.drop (q.length - 2)).length = 2 by simp; omega)
  have hsplit : q = q.take (q.length - 2) ++ [hi, lo] := by rw [← htail, List.take_append_drop]
  have hne : crc16 (q.take (q.length - 2)) ≠ hi ++ lo := fun heq =>
    hc (hsplit ▸ (crc16_append_pair_eq_zero_iff _ hi lo).mpr heq)
  exact ⟨_, addByte_endFin_mismatch h.unfinished h.mode rfl hl (hsplit ▸ h.holds) hne, rfl, rfl⟩

end Frame.Receiving

/-- A Frame that receives, fed with an image its buffer has room for, holds what the image carries. -/
theorem WireImage.feed {s w : List Byte} (h : WireImage s w) {F : Frame} {q : List Byte} (hF : F.Receiving q)
    (hl : q.length + w.length ≤ Config.maxFrame) : ∃ G, F.feed s = .ok (G, false, []) ∧ G.Receiving (q ++ w) := by
  induction h generalizing F q with
  | nil => exact ⟨F, rfl, by simpa using hF⟩
  | @lit x s w hend hesc _ ih =>
    rw [List.length_cons] at hl
    obtain ⟨G, hstep, hG⟩ := hF.feed_lit (by omega) hend hesc
    rw [hstep, List.append_cons]
    exact ih hG (by simp; omega)
  | @pair c s w hend _ ih =>
    rw [List.length_cons] at hl
    obtain ⟨G, hstep, hG⟩ := hF.feed_pair (by omega) hend
    rw [hstep, List.append_cons]
    exact ih hG (by simp; omega)

/-- A Frame that receives, fed with an image its buffer has no room for, aborts inside it, whatever follows (R130). -/
theorem WireImage.feed_tooBig {s w : List Byte} (h : WireImage s w) {F : Frame} {q : List Byte} (hF : F.Receiving q)
    (hq : q.length ≤ Config.maxFrame) (hl : Config.maxFrame < q.length + w.length) (t : List Byte) :
    ∃ G r, F.feed (s ++ t) = .ok (G, true, r) ∧ G.error = true ∧ G.errCode = .eTooBig := by
  induction h generalizing F q with
  | nil => exact absurd hl (by simpa using hq)
  | @lit x s w hend hesc _ ih =>
    rcases hq.eq_or_lt with hfull | hroom
    · obtain ⟨G, hG⟩ := hF.feed_lit_full hfull hend hesc (s ++ t)
      exact ⟨G, s ++ t, hG⟩
    · obtain ⟨G, hstep, hG⟩ := hF.feed_lit hroom hend hesc
      rw [List.cons_append, hstep]
      rw [List.length_cons] at hl
      exact ih hG (by simpa using hroom) (by simp; omega)
  | @pair c s w hend _ ih =>
    rcases hq.eq_or_lt with hfull | hroom
    · obtain ⟨G, hG⟩ := hF.feed_pair_full hfull hend (s ++ t)
      exact ⟨G, s ++ t, hG⟩
    · obtain ⟨G, hstep, hG⟩ := hF.feed_pair hroom hend
      rw [List.cons_append, List.cons_append, hstep]
      rw [List.length_cons] at hl
      exact ih hG (by simpa using hroom) (by simp; omega)

/-! ### Feeding a frame to a fresh Frame (R124, R168) -/

/-- The opening delimiter leaves a fresh Frame as it is (R124). -/
theorem feed_fresh_end (s : List Byte) : Frame.fresh.feed (Config.endByte :: s) = Frame.fresh.feed s :=
  feed_cons_false (addByte_endSkip rfl rfl rfl (by decide)) s

theorem WireImage.feed_fresh {s w : List Byte} (h : WireImage s w) (hl : w.length ≤ Config.maxFrame) :
    ∃ G, Frame.fresh.feed (Config.endByte :: s) = .ok (G, false, []) ∧ G.Receiving w := by
  rw [feed_fresh_end]
  exact h.feed fresh_receiving (by simpa using hl)

theorem wireDecode_of_success {s r p : List Byte} {F : Frame} (h : Frame.fresh.feed s = .ok (F, true, r))
    (he : F.error = false) (hp : F.Holds p) : wireDecode s = .ok (.ok p) := by
  simp [wireDecode, h, he, memRead_ok (Nat.zero_add _).le hp.2]

theorem wireDecode_of_failure {s r : List Byte} {F : Frame} (h : Frame.fresh.feed s = .ok (F, true, r))
    (he : F.error = true) : wireDecode s = .ok (.err F.errCode) := by
  simp [wireDecode, h, he]

theorem wireDecode_of_pending {s r : List Byte} {F : Frame} (h : Frame.fresh.feed s = .ok (F, false, r)) :
    wireDecode s = .ok .pending := by
  simp [wireDecode, h]

/-- A frame that carries too many bytes (R130). -/
theorem WireImage.wireDecode_tooBig {s w : List Byte} (h : WireImage s w) (hl : Config.maxFrame < w.length) :
    wireDecode (Config.endByte :: (s ++ [Config.endByte])) = .ok (.err .eTooBig) := by
  obtain ⟨G, r, hfeed, herror, hcode⟩ :=
    h.feed_tooBig fresh_receiving (Nat.zero_le _) (by simpa using hl) [Config.endByte]
  rw [← feed_fresh_end] at hfeed
  rw [wireDecode_of_failure hfeed herror, hcode]

/-- A frame that carries bytes whose residue is not 0 (R131, R157 (c)). -/
theorem WireImage.wireDecode_eCrc {s w : List Byte} (h : WireImage s w) (hw : 3 ≤ w.length)
    (hl : w.length ≤ Config.maxFrame) (hc : crc16 w ≠ 0) :
    wireDecode (Config.endByte :: (s ++ [Config.endByte])) = .ok (.err .eCrc) := by
  obtain ⟨F, hbody, hF⟩ := h.feed_fresh hl
  obtain ⟨G, hend, herror, hcode⟩ := hF.addByte_end_mismatch hw hc
  have hfeed := (feed_append hbody [Config.endByte]).trans (feed_cons_true hend [])
  rw [← List.cons_append, wireDecode_of_failure hfeed herror, hcode]

/-! ### Decoding an encoded payload (R169 to R171) -/

/-- Everything but the closing delimiter leaves a Frame that holds the payload and its checksum. -/
theorem feed_wireEncode_dropLast {p : List Byte} (hp : p.length ≤ Config.maxPayload) :
    ∃ F, Frame.fresh.feed (wireEncode p).dropLast = .ok (F, false, []) ∧ F.Receiving (withCrc p) := by
  rw [wireEncode_eq, ← List.cons_append, List.dropLast_concat]
  exact (wireImage_stuff (withCrc p)).feed_fresh (withCrc_length_le hp)

/-- The closing delimiter terminates the Frame with the payload. -/
theorem feed_wireEncode {p : List Byte} (h1 : 1 ≤ p.length) (hp : p.length ≤ Config.maxPayload) :
    ∃ F, Frame.fresh.feed (wireEncode p) = .ok (F, true, []) ∧ F.error = false ∧ F.Holds p := by
  obtain ⟨F, hbody, hF⟩ := (wireImage_stuff (withCrc p)).feed_fresh (withCrc_length_le hp)
  obtain ⟨G, hend, hG⟩ := hF.addByte_end_match h1
  exact ⟨G, (feed_append hbody [Config.endByte]).trans (feed_cons_true hend []), hG⟩

theorem wireDecode_wireEncode {p : List Byte} (h1 : 1 ≤ p.length) (hp : p.length ≤ Config.maxPayload) :
    wireDecode (wireEncode p) = .ok (.ok p) := by
  obtain ⟨F, hfeed, herror, hholds⟩ := feed_wireEncode h1 hp
  exact wireDecode_of_success hfeed herror hholds

/-- The two checksum bytes alone are too few to finish (R124). -/
theorem wireDecode_wireEncode_nil : wireDecode (wireEncode []) = .ok .pending := by
  obtain ⟨F, hbody, hF⟩ := (wireImage_stuff (withCrc [])).feed_fresh (by decide)
  have hend := addByte_endSkip hF.unfinished hF.mode rfl (by rw [hF.holds.1]; decide)
  exact wireDecode_of_pending ((feed_append hbody [Config.endByte]).trans (feed_cons_false hend []))

/-- Settles O28: feeding the stuffed image gives back the payload with its checksum, and the closing delimiter finishes. -/
theorem encodedPayloadDecodesToItself : Obligations.EncodedPayloadDecodesToItself := by
  intro p h1 hp
  obtain ⟨F, hfeed, _⟩ := feed_wireEncode h1 hp
  obtain ⟨G, hbody, _⟩ := feed_wireEncode_dropLast hp
  exact ⟨wireDecode_wireEncode h1 hp, ⟨F, hfeed⟩, ⟨G, hbody⟩⟩

/-- Settles O29: what counts is the payload with its checksum, carried whole however it is stuffed; a shorter payload decodes
to itself, the empty one to no frame. -/
theorem oversizePayloadIsRejectedExactly : Obligations.OversizePayloadIsRejectedExactly := by
  intro p
  constructor
  · intro h
    by_contra hshort
    have hp : p.length ≤ Config.maxPayload := Nat.le_of_lt_succ (Nat.lt_of_not_le hshort)
    rcases Nat.eq_zero_or_pos p.length with h0 | h1
    · rw [List.eq_nil_of_length_eq_zero h0, wireDecode_wireEncode_nil] at h
      cases h
    · rw [wireDecode_wireEncode h1 hp] at h
      cases h
  · intro h
    exact (wireImage_stuff (withCrc p)).wireDecode_tooBig (by rw [withCrc_length]; exact Nat.add_le_add_right h 2)

/-- Settles O30: the flip changes one byte of the payload with its checksum, so the residue, which was 0, is not. -/
theorem structureKeepingFlipGivesChecksumError : Obligations.StructureKeepingFlipGivesChecksumError := by
  intro p u v b k h1 hp hk hsent _ hesc hend' hesc'
  have hstuff : stuff (withCrc p) = u ++ [b] ++ v := List.append_cancel_right (List.cons.inj hsent).2
  have himage : WireImage (u ++ [b] ++ v) (withCrc p) := hstuff ▸ wireImage_stuff (withCrc p)
  obtain ⟨q₁, x, x', q₂, hx, hq, himage'⟩ := himage.replace (ne_xor_bit b hk) hesc hend' hesc'
  have hres : crc16 (q₁ ++ [x] ++ q₂) = 0 := hq ▸ crc16_append_crcBytes p
  have hres' : crc16 (q₁ ++ [x'] ++ q₂) ≠ 0 := fun h0 => crc16_ne_of_one_byte hx q₁ q₂ (hres.trans h0.symm)
  have hlen : (q₁ ++ [x'] ++ q₂).length = p.length + 2 := by rw [← withCrc_length, hq]; simp
  exact himage'.wireDecode_eCrc (hlen ▸ Nat.add_le_add_right h1 2) (hlen ▸ Nat.add_le_add_right hp 2) hres'

/-- Settles O31: the payload is 0x41 with its own checksum and 0x7F, which the flip makes a delimiter. -/
theorem flipCanGiveASilentSuccess : Obligations.FlipCanGiveASilentSuccess :=
  ⟨[0x41, 0xB9, 0x15, 0x7F], [0x41], [0x41, 0xB9, 0x15], stuff (crcBytes (crc16 [0x41, 0xB9, 0x15, 0x7F])), 0x7F, 0,
    by decide +kernel⟩

end Sys2Proof.Machine
end

section
/-! PROOFS. The poll iteration, READ and SEND (O32 to O41, O43). The idea is one relation that follows the loop of DrainOnce
byte by byte and says which bytes it consumed; each clause about a poll is one induction over it. On an open stream the loop is
the feeding of the queue to the current Frame, so READ delivers what ENCODE's round trip feeds. -/

namespace Sys2Proof.Machine

/-! ### A pop with a plan of the environment (R74, log entry 12) -/

/-- The next pop of a non-empty stream reads its head: the stream is open and no plan of the environment is due. -/
def Transport.Readable (t : Transport) : Prop := t.rxClosed = false ∧ t.closeAfter ≠ some 0

/-- The transport after a byte was read, with `q` left and the environment's plan counted down. -/
def Transport.popTo (t : Transport) (q : List Byte) : Transport :=
  { t with rxq := q, closeAfter := t.closeAfter.map (· - 1) }

@[simp] theorem popTo_rxq (t : Transport) (q : List Byte) : (t.popTo q).rxq = q := rfl
@[simp] theorem popTo_rxClosed (t : Transport) (q : List Byte) : (t.popTo q).rxClosed = t.rxClosed := rfl
@[simp] theorem popTo_closeAfter (t : Transport) (q : List Byte) :
    (t.popTo q).closeAfter = t.closeAfter.map (· - 1) := rfl

theorem popTo_of_no_plan {t : Transport} (h : t.closeAfter = none) (q : List Byte) : t.popTo q = { t with rxq := q } := by
  simp [Transport.popTo, h]

/-- Without a plan the environment closes nothing. -/
theorem settle_of_no_plan {t : Transport} (h : t.closeAfter = none) : t.settle = t := by simp [Transport.settle, h]

/-- A stream that is open once the plan is settled was open, and the plan was not due. -/
theorem settle_of_open {t : Transport} (h : t.settle.rxClosed = false) : t.settle = t ∧ t.Readable := by
  unfold Transport.settle at h ⊢
  split at h
  · cases h
  · exact ⟨rfl, h, ‹_›⟩

/-- An open stream that is closed once the plan is settled had a plan that was due. -/
theorem closeAfter_of_settle_closed {t : Transport} (hopen : t.rxClosed = false) (h : t.settle.rxClosed = true) :
    t.closeAfter = some 0 := by
  unfold Transport.settle at h
  split at h
  · assumption
  · simp [hopen] at h

/-- A pop that answers a byte. -/
theorem rxPop_eq_some {t u : Transport} {b : Byte} (h : t.rxPop = (some b, u)) :
    ∃ q, t.rxq = b :: q ∧ t.Readable ∧ u = t.popTo q := by
  obtain ⟨hnone, -⟩ | ⟨b', q, hq, hopen, hpop⟩ := rxPop_cases t
  · simp [h] at hnone
  · obtain ⟨hsettle, hread⟩ := settle_of_open hopen
    rw [h, hsettle] at hpop
    cases hpop
    exact ⟨q, hq, hread, rfl⟩

/-- A pop that answers `EOS` with bytes pending (R187). -/
theorem rxPop_eq_none {t u : Transport} (h : t.rxPop = (none, u)) (hq : t.rxq ≠ []) :
    u = t.settle ∧ t.settle.rxClosed = true := by
  unfold Transport.rxPop at h
  simp only at h
  split at h
  · cases h; exact ⟨rfl, ‹_›⟩
  · rw [settle_rxq] at h
    split at h
    · exact absurd ‹_› hq
    · cases h

/-! ### The bytes a poll iteration consumes (R178) -/

/-- A poll iteration from the top of its loop, with the bytes it consumes: it ends on the empty queue, on `EOS` with bytes
pending, or on the byte that terminates the current Frame (R180). -/
inductive DrainRun : LinkController → Transport → List Byte → LinkController → Transport → Drained → Prop
  | drained {lc : LinkController} {t : Transport} (hq : t.rxq = []) : DrainRun lc t [] lc t .drained
  | eos {lc : LinkController} {t : Transport} (hq : t.rxq ≠ []) (hclosed : t.settle.rxClosed = true) :
      DrainRun lc t [] lc t.settle .eos
  | terminal {lc : LinkController} {t : Transport} {b : Byte} {q : List Byte} {F : Frame} (hq : t.rxq = b :: q)
      (hread : t.Readable) (hb : lc.frameForByte.addByte b = .ok (F, true)) :
      DrainRun lc t [b] (lc.handoff F) (t.popTo q) (.terminal F)
  | byte {lc lc' : LinkController} {t t' : Transport} {b : Byte} {q used : List Byte} {d : Drained} {F : Frame}
      (hq : t.rxq = b :: q) (hread : t.Readable) (hb : lc.frameForByte.addByte b = .ok (F, false))
      (h : DrainRun { lc with currentFrame := some F } (t.popTo q) used lc' t' d) : DrainRun lc t (b :: used) lc' t' d

/-- The loop, entered with the count of all pending bytes, is such a run. -/
theorem drainLoop_run {n : Nat} {lc lc' : LinkController} {t t' : Transport} {d : Drained} (hn : t.rxq.length = n)
    (h : drainLoop n lc t = .ok (lc', t', d)) : ∃ used, DrainRun lc t used lc' t' d := by
  induction n generalizing lc t with
  | zero => cases h; exact ⟨[], .drained (List.eq_nil_of_length_eq_zero hn)⟩
  | succ n ih =>
    rcases hp : t.rxPop with ⟨_ | b, u⟩
    · have hq : t.rxq ≠ [] := List.ne_nil_of_length_eq_add_one hn
      obtain ⟨rfl, hclosed⟩ := rxPop_eq_none hp hq
      rw [drainLoop_eos hp] at h
      cases h
      exact ⟨[], .eos hq hclosed⟩
    · obtain ⟨q, hq, hread, rfl⟩ := rxPop_eq_some hp
      cases hb : lc.frameForByte.addByte b with
      | error e => rw [drainLoop_error hp hb] at h; cases h
      | ok r =>
        obtain ⟨F, fin⟩ := r
        cases fin with
        | true =>
          rw [drainLoop_terminal hp hb] at h
          cases h
          exact ⟨[b], .terminal hq hread hb⟩
        | false =>
          rw [drainLoop_continue hp hb] at h
          rw [hq] at hn
          obtain ⟨used, hrun⟩ := ih (Nat.succ.inj hn) h
          exact ⟨b :: used, .byte hq hread hb hrun⟩

namespace DrainRun

variable {lc lc' : LinkController} {t t' : Transport} {used : List Byte} {d : Drained}

theorem rxq_eq (h : DrainRun lc t used lc' t' d) : t.rxq = used ++ t'.rxq := by
  induction h with
  | drained | eos => simp
  | terminal hq => simp [hq]
  | byte hq _ _ _ ih => rw [popTo_rxq] at ih; rw [hq, ih, List.cons_append]

theorem ne_noData (h : DrainRun lc t used lc' t' d) : d ≠ .noData := by
  induction h with
  | drained | eos | terminal => nofun
  | byte _ _ _ _ ih => exact ih

theorem rxq_of_drained (h : DrainRun lc t used lc' t' d) (hd : d = .drained) : t'.rxq = [] := by
  induction h with
  | drained hq => exact hq
  | eos | terminal => cases hd
  | byte _ _ _ _ ih => exact ih hd

/-- The bytes consumed terminate the current Frame with the last of them, and it is handed off (R180, R181, R231). -/
theorem feed_of_terminal (h : DrainRun lc t used lc' t' d) {F : Frame} (hd : d = .terminal F) :
    lc.frameForByte.feed used = .ok (F, true, []) ∧ lc' = lc.handoff F := by
  induction h with
  | drained | eos => cases hd
  | terminal _ _ hb => cases hd; exact ⟨feed_cons_true hb [], rfl⟩
  | byte _ _ hb _ ih =>
    obtain ⟨hfeed, rfl⟩ := ih hd
    exact ⟨(feed_cons_false hb _).trans hfeed, rfl⟩

/-- Otherwise they leave the current Frame in progress, and it is kept (R179). -/
theorem feed_of_not_terminal (h : DrainRun lc t used lc' t' d) (hd : ∀ F, d ≠ .terminal F) :
    (used = [] ∧ lc' = lc) ∨
      (used ≠ [] ∧ ∃ F, lc.frameForByte.feed used = .ok (F, false, []) ∧ lc' = { lc with currentFrame := some F }) := by
  induction h with
  | drained | eos => exact .inl ⟨rfl, rfl⟩
  | terminal => exact absurd rfl (hd _)
  | byte _ _ hb _ ih =>
    refine .inr ⟨List.cons_ne_nil _ _, ?_⟩
    rw [feed_cons_false hb]
    obtain ⟨rfl, rfl⟩ | ⟨-, F, hfeed, rfl⟩ := ih hd
    · exact ⟨_, rfl, rfl⟩
    · exact ⟨F, hfeed, rfl⟩

/-- A closed stream gives `EOS` at once (R187). -/
theorem eos_of_closed (h : DrainRun lc t used lc' t' d) (hclosed : t.rxClosed = true) (hq : t.rxq ≠ []) :
    d = .eos ∧ used = [] := by
  cases h with
  | drained hempty => exact absurd hempty hq
  | eos => exact ⟨rfl, rfl⟩
  | terminal _ hread | byte _ hread => exact absurd hread.1 (by simp [hclosed])

theorem closed_of_eos (h : DrainRun lc t used lc' t' d) (hd : d = .eos) : t'.rxClosed = true ∧ t'.rxq ≠ [] := by
  induction h with
  | drained | terminal => cases hd
  | eos hq hclosed => exact ⟨hclosed, by rwa [settle_rxq]⟩
  | byte _ _ _ _ ih => exact ih hd

/-- Without a plan of the environment only the queue changes. -/
theorem transport_of_no_plan (h : DrainRun lc t used lc' t' d) (hplan : t.closeAfter = none) :
    t' = { t with rxq := t'.rxq } := by
  induction h with
  | drained => rfl
  | eos => rw [settle_of_no_plan hplan]
  | terminal => rw [popTo_of_no_plan hplan]
  | byte _ _ _ _ ih => simpa [popTo_of_no_plan hplan, hplan] using ih

/-- A plan to close after `k` more bytes bounds the bytes consumed, and closes the stream once `k` are consumed and more are
wanted; it is counted down otherwise (log entry 12). -/
theorem plan (h : DrainRun lc t used lc' t' d) {k : Nat} (hopen : t.rxClosed = false) (hplan : t.closeAfter = some k) :
    used.length ≤ k ∧ (k < t.rxq.length → (∀ F, d ≠ .terminal F) → d = .eos ∧ used.length = k) ∧
      (d ≠ .eos → t'.rxClosed = false ∧ t'.closeAfter = some (k - used.length)) := by
  induction h generalizing k with
  | drained hq => exact ⟨Nat.zero_le _, by simp [hq], fun _ => ⟨hopen, hplan⟩⟩
  | eos _ hclosed =>
    obtain rfl : k = 0 := by simpa [hplan] using closeAfter_of_settle_closed hopen hclosed
    exact ⟨Nat.le_refl _, fun _ _ => ⟨rfl, rfl⟩, fun hd => absurd rfl hd⟩
  | terminal _ hread =>
    have hk : k ≠ 0 := by simpa [hplan] using hread.2
    exact ⟨Nat.pos_of_ne_zero hk, fun _ hd => absurd rfl (hd _), fun _ => ⟨hopen, by simp [hplan]⟩⟩
  | byte hq hread _ _ ih =>
    have hk : k ≠ 0 := by simpa [hplan] using hread.2
    obtain ⟨hle, hdue, hkept⟩ := ih (k := k - 1) hopen (by simp [hplan])
    simp only [popTo_rxq] at hdue
    simp only [hq, List.length_cons]
    refine ⟨by omega, fun hlt hd => ?_, fun hd => ?_⟩
    · obtain ⟨heos, hlen⟩ := hdue (by omega) hd
      exact ⟨heos, by omega⟩
    · have hcount := hkept hd
      rwa [Nat.sub_sub, Nat.add_comm 1] at hcount

end DrainRun

/-- A poll iteration of a closed stream with bytes pending reads none of them (R187). -/
theorem drainOnce_closed {t : Transport} (hclosed : t.rxClosed = true) (hq : t.rxq ≠ []) (lc : LinkController) :
    drainOnce lc t = .ok (lc, t.settle, .eos) := by
  obtain ⟨n, hn⟩ := Nat.exists_eq_add_one.mpr (List.length_pos_iff.mpr hq)
  rw [drainOnce_loop hq, hn, drainLoop_eos (rxPop_closed hclosed)]

/-- Settles O33: an empty queue gives no data and is left alone; any other is a `DrainRun`, one lemma for each clause. -/
theorem pollFeedsExactlyTheBytesItConsumes : Obligations.PollFeedsExactlyTheBytesItConsumes := by
  refine ⟨fun lc t hclosed hq =>
    ⟨t.settle, drainOnce_closed hclosed hq lc, settle_rxq t, settle_txlog t, settle_rxClosed hclosed⟩, ?_⟩
  intro lc lc' t t' d hpoll
  by_cases hq : t.rxq = []
  · rw [drainOnce_empty hq] at hpoll
    cases hpoll
    exact ⟨[], rfl, rfl, iff_of_true rfl hq, fun _ => hq, nofun, fun _ _ => rfl, fun _ hused => absurd rfl hused,
      fun _ hpending => absurd hq hpending, nofun, fun _ => rfl,
      fun k hopen hplan => ⟨Nat.zero_le k, by simp [hq], fun _ => ⟨hopen, hplan⟩⟩⟩
  · have htxlog := (drainOnce_polled hpoll).txlog_eq
    rw [drainOnce_loop hq] at hpoll
    obtain ⟨used, hrun⟩ := drainLoop_run rfl hpoll
    refine ⟨used, hrun.rxq_eq, htxlog, iff_of_false hrun.ne_noData hq, hrun.rxq_of_drained, fun F => hrun.feed_of_terminal,
      fun hd hused => ?_, fun hd hused => ?_, hrun.eos_of_closed, hrun.closed_of_eos, hrun.transport_of_no_plan,
      fun k => hrun.plan⟩
    · exact ((hrun.feed_of_not_terminal hd).resolve_right fun h => h.1 hused).2
    · exact ((hrun.feed_of_not_terminal hd).resolve_left fun h => hused h.1).2

/-! ### Feeding a sequence, up to the byte that terminates the Frame (R168) -/

section Feed

variable {F G : Frame} {fin : Bool} {s r : List Byte}

/-- What the first byte of a sequence that is fed has done. -/
theorem feed_cons_eq_ok {b : Byte} (h : F.feed (b :: s) = .ok (G, fin, r)) :
    (F.addByte b = .ok (G, true) ∧ fin = true ∧ r = s) ∨
      ∃ H, F.addByte b = .ok (H, false) ∧ H.feed s = .ok (G, fin, r) := by
  cases hb : F.addByte b with
  | error e => rw [feed_cons_error hb] at h; cases h
  | ok x =>
    obtain ⟨H, last⟩ := x
    cases last with
    | true => rw [feed_cons_true hb] at h; cases h; exact .inl ⟨rfl, rfl, rfl⟩
    | false => rw [feed_cons_false hb] at h; exact .inr ⟨H, rfl, h⟩

/-- A Frame that a sequence terminates takes no byte after it. -/
theorem feed_append_of_terminal (h : F.feed s = .ok (G, true, r)) (t : List Byte) :
    F.feed (s ++ t) = .ok (G, true, r ++ t) := by
  induction s generalizing F with
  | nil => cases h
  | cons b s ih =>
    obtain ⟨hb, -, rfl⟩ | ⟨H, hb, h⟩ := feed_cons_eq_ok h
    · exact feed_cons_true hb _
    · exact (feed_cons_false hb _).trans (ih h)

/-- A sequence that terminates the Frame on its last byte, cut before that byte (R188). -/
theorem feed_split {t : List Byte} (h : F.feed (s ++ t) = .ok (G, true, [])) (ht : t ≠ []) :
    ∃ H, F.feed s = .ok (H, false, []) ∧ H.feed t = .ok (G, true, []) := by
  induction s generalizing F with
  | nil => exact ⟨F, rfl, h⟩
  | cons b s ih =>
    obtain ⟨-, -, hrest⟩ | ⟨H, hb, h⟩ := feed_cons_eq_ok h
    · exact absurd (List.append_eq_nil_iff.mp hrest.symm).2 ht
    · rw [feed_cons_false hb]
      exact ih h

/-- A Frame that a sequence terminates has finished (R137 (a)). -/
theorem feed_finished (h : F.feed s = .ok (G, true, r)) : G.finished = true := by
  induction s generalizing F with
  | nil => cases h
  | cons b s ih =>
    obtain ⟨hb, -⟩ | ⟨H, -, h⟩ := feed_cons_eq_ok h
    · exact addByte_finished_eq hb
    · exact ih h

end Feed

/-! ### A poll of an open stream feeds the queue (R178 to R181) -/

/-- The Link Controller after its current Frame became `F` by the bytes of a poll: handed off if they finished it. -/
def LinkController.afterFeed (lc : LinkController) (F : Frame) (fin : Bool) : LinkController :=
  if fin then lc.handoff F else { lc with currentFrame := some F }

/-- How the poll iteration ends whose bytes made `F` of the current Frame. -/
def Drained.ofFeed (F : Frame) (fin : Bool) : Drained := if fin then .terminal F else .drained

theorem drainLoop_feed {s r : List Byte} {lc : LinkController} {t : Transport} {F : Frame} {fin : Bool} (ht : t.Open)
    (hq : t.rxq = s) (hs : s ≠ []) (h : lc.frameForByte.feed s = .ok (F, fin, r)) :
    drainLoop s.length lc t = .ok (lc.afterFeed F fin, { t with rxq := r }, .ofFeed F fin) := by
  induction s generalizing lc t with
  | nil => exact absurd rfl hs
  | cons b s ih =>
    have hpop := rxPop_open hq ht.1 ht.2
    obtain ⟨hb, rfl, rfl⟩ | ⟨G, hb, h⟩ := feed_cons_eq_ok h
    · exact drainLoop_terminal hpop hb _
    · rw [List.length_cons, drainLoop_continue hpop hb]
      by_cases hlast : s = []
      · subst hlast
        cases h
        rfl
      · have hkept := ih (lc := { lc with currentFrame := some G }) (t := { t with rxq := s }) ht rfl hlast h
        rw [hkept]
        cases fin <;> rfl

/-- A poll of an open stream with bytes pending: the queue fed to the current Frame, up to the byte that terminates it. -/
theorem drainOnce_feed {lc : LinkController} {t : Transport} {F : Frame} {fin : Bool} {r : List Byte} (ht : t.Open)
    (hq : t.rxq ≠ []) (h : lc.frameForByte.feed t.rxq = .ok (F, fin, r)) :
    drainOnce lc t = .ok (lc.afterFeed F fin, { t with rxq := r }, .ofFeed F fin) := by
  rw [drainOnce_loop hq, drainLoop_feed ht rfl hq h]

/-- With no frame in progress the next byte goes to a fresh Frame (R179). -/
theorem frameForByte_fresh {lc : LinkController} (h : lc.currentFrame = none) : lc.frameForByte = Frame.fresh := by
  rw [LinkController.frameForByte, h, Option.getD_none]

/-- Settles O34: the two parts together terminate a fresh Frame on their last byte, so the first leaves it in progress and
the second finishes it. -/
theorem splitFrameIsDeliveredWhole : Obligations.SplitFrameIsDeliveredWhole := by
  intro p a b lc t u h1 hp hsplit ha hb hcur ht hta hu hub
  subst hta hub
  obtain ⟨F, hfeed, herror, hholds⟩ := feed_wireEncode h1 hp
  rw [hsplit] at hfeed
  obtain ⟨G, hfirst, hsecond⟩ := feed_split hfeed hb
  rw [← frameForByte_fresh hcur] at hfirst
  exact ⟨{ lc with currentFrame := some G }, drainOnce_feed ht ha hfirst, F, feed_finished hfeed, herror, hholds,
    drainOnce_feed (lc := { lc with currentFrame := some G }) hu hb hsecond⟩

/-! ### READ (R182 to R187) -/

section Read

variable {s : State} {timeout : Nat}

/-- A READ that may be issued is the first iteration of its loop (R182). -/
theorem exec_read (h : s.MayRead) (timeout : Nat) : exec (.read timeout) s = readIteration (s.beginRead timeout) := by
  obtain ⟨hidle, hrunning, halive⟩ := h
  rw [exec, execRead, whenIdle_idle hidle, if_neg (by simp [State.background, hrunning, halive])]

/-- An iteration whose deadline has passed (R186). -/
theorem readIteration_expired (h : s.expired.1 = true) : readIteration s = .next (s.expired.2.endOp (.status .sTimeout)) :=
  if_pos h

/-- An iteration in time dispatches on its poll (R182). -/
theorem readIteration_polled {lc : LinkController} {env : Transport} {d : Drained} (h : s.expired.1 = false)
    (hpoll : drainOnce s.lc s.env = .ok (lc, env, d)) :
    readIteration s = readDispatch d { s.expired.2 with lc := lc, env := env } := by
  rw [readIteration, if_neg (by simp [h]), readPoll, expired_lc, expired_env, hpoll]

/-- The first deadline test of a READ with a timeout other than 0 takes the clock's next answer (R37). -/
theorem beginRead_expired (s : State) (h : timeout ≠ 0) : (s.beginRead timeout).expired =
    (s.clock.headD false, { s.beginRead timeout with clock := s.clock.tail }) :=
  expired_of_clock h

/-- A READ issued in time dispatches on its poll. -/
theorem exec_read_polled {lc : LinkController} {env : Transport} {d : Drained} (h : s.MayRead) (ht : s.InTime timeout)
    (hpoll : drainOnce { s.lc with deadline := timeout } s.env = .ok (lc, env, d)) :
    exec (.read timeout) s =
      readDispatch d { s with lc := lc, env := env, clock := s.clock.tail, foreground := .reading } := by
  obtain ⟨h0, hclock⟩ := ht
  have htest := beginRead_expired s h0
  rw [hclock] at htest
  rw [exec_read h, readIteration_polled (congrArg Prod.fst htest) hpoll, htest]
  rfl

/-- A READ that ends in its first iteration leaves the idle foreground as it found it. -/
theorem endOp_of_idle (h : s.foreground = .idle) (lc : LinkController) (env : Transport) (clock : List Bool) (r : Result) :
    State.endOp { s with lc := lc, env := env, clock := clock, foreground := .reading } r =
      { s with lc := lc, env := env, clock := clock, outputs := s.outputs ++ [.result r] } := by
  rw [h]; rfl

end Read

/-- The dispatch of a Frame whose verdict is known (R183 to R185). -/
theorem readDispatch_terminal {F : Frame} {v : Verdict} (h : F.verdict = .ok v) (s : State) :
    readDispatch (.terminal F) s = .next (s.endOp v.readResult) := by
  simp only [readDispatch, h]

/-- Settles O36: READ dispatches on its poll, one clause for each of R182's actions. -/
theorem readActsOnThePollResult : Obligations.ReadActsOnThePollResult := by
  intro s timeout lc env d hmay htime hpoll
  rw [exec_read_polled hmay htime hpoll]
  have hend := endOp_of_idle hmay.1 lc env s.clock.tail
  refine ⟨?_, ?_, fun F p hd hfin herror hholds => ?_, fun F hd hfin herror => ?_⟩
  · rintro (rfl | rfl) <;> rfl
  · rintro rfl
    exact congrArg _ (hend _)
  · rw [hd, readDispatch_terminal (verdict_success hfin herror hholds.2), hend, Verdict.readResult]
  · rw [hd, readDispatch_terminal (verdict_failure hfin herror), hend, Verdict.readResult]

/-- Settles O39: the frame at the head of the queue terminates a fresh Frame with the rest of the queue unread, and READ
returns the payload of a Frame that finished without error. -/
theorem readDeliversTheWaitingFrame : Obligations.ReadDeliversTheWaitingFrame := by
  intro s timeout p rest hmay htime hcur hopen hq h1 hp
  obtain ⟨F, hfeed, herror, hholds⟩ := feed_wireEncode h1 hp
  have hfin := feed_finished hfeed
  have hwaiting := feed_append_of_terminal hfeed rest
  rw [← hq, ← frameForByte_fresh hcur] at hwaiting
  have hpoll := drainOnce_feed (lc := { s.lc with deadline := timeout }) hopen (by simp [hq, wireEncode_eq]) hwaiting
  obtain ⟨-, -, hsuccess, -⟩ := readActsOnThePollResult s timeout _ _ _ hmay htime hpoll
  exact ⟨F, hfin, herror, hholds, hsuccess F p rfl hfin herror hholds⟩

/-- After a READ that delivered a frame the next may be issued: no frame is in progress and the stream is still open. -/
theorem read_delivers_and_may_read_again {s : State} {timeout : Nat} {p rest : List Byte} (hmay : s.MayRead)
    (htime : s.InTime timeout) (hcur : s.lc.currentFrame = none) (hopen : s.env.Open)
    (hq : s.env.rxq = wireEncode p ++ rest) (h1 : 1 ≤ p.length) (hp : p.length ≤ Config.maxPayload) :
    ∃ t, exec (.read timeout) s = .next t ∧ t.outputs = s.outputs ++ [.result (.payload p)] ∧ t.env.rxq = rest ∧
      t.MayRead ∧ t.clock = s.clock.tail ∧ t.lc.currentFrame = none ∧ t.env.Open := by
  obtain ⟨F, -, -, -, hread⟩ := readDeliversTheWaitingFrame s timeout p rest hmay htime hcur hopen hq h1 hp
  exact ⟨_, hread, rfl, rfl, hmay, rfl, rfl, hopen⟩

/-- Settles O40: the first READ delivers the frame at the head and leaves a state in which the second delivers the other. -/
theorem twoReadsDeliverTwoFramesInOrder : Obligations.TwoReadsDeliverTwoFramesInOrder := by
  intro s m n p q hmay htime hn hclock hcur hopen hq hp1 hp hq1 hq2
  obtain ⟨t, hread, hout, hrest, hmay', hclock', hcur', hopen'⟩ :=
    read_delivers_and_may_read_again hmay htime hcur hopen hq hp1 hp
  obtain ⟨u, hread', hout', hempty, -⟩ :=
    read_delivers_and_may_read_again hmay' ⟨hn, hclock' ▸ hclock⟩ hcur' hopen' (by rw [hrest, List.append_nil]) hq1 hq2
  refine ⟨t, u, hread, hout, hrest, hread', ?_, hempty⟩
  rw [hout', hout, List.append_assoc, List.singleton_append]

/-- Settles O35: timeout 0 uses no answer of the clock, any other takes the next one; either way no poll runs (R186). -/
theorem expiredReadTimesOutAndChangesNothing : Obligations.ExpiredReadTimesOutAndChangesNothing := by
  intro s hmay
  have hend (timeout : Nat) := endOp_of_idle hmay.1 { s.lc with deadline := timeout } s.env
  constructor
  · have htest : (s.beginRead 0).expired = (true, s.beginRead 0) := expired_of_zero rfl
    rw [exec_read hmay, readIteration_expired (congrArg Prod.fst htest), htest]
    exact congrArg _ (hend 0 s.clock _)
  · intro timeout h0 hclock
    have htest := beginRead_expired s h0
    rw [hclock] at htest
    rw [exec_read hmay, readIteration_expired (congrArg Prod.fst htest), htest]
    exact congrArg _ (hend timeout s.clock.tail _)

/-- A step of a foreground inside READ or STOP issues no operation (R8, R190). -/
theorem step_of_busy {s : State} (h : s.foreground ≠ .idle) : step s = agentTurn s := step_of_no_fetch (fetchOp_busy h)

/-- Settles O37: the default turn and the foreground's own turn are READ's (log entry 8), and an iteration tests the deadline
before it polls (R182, R186). -/
theorem stepInsideReadRunsOneIteration : Obligations.StepInsideReadRunsOneIteration := by
  intro s hreading
  have hstep : step s = agentTurn s := step_of_busy (by simp [hreading])
  refine ⟨fun hinputs => ?_, fun c rest hinputs => ?_, fun rest hinputs => ?_, readIteration_expired,
    fun htime lc env d => readIteration_polled htime⟩
  · simp only [hstep, agentTurn, hinputs, defaultTurn, hreading]
  · simp only [hstep, agentTurn, hinputs, defaultTurn, hreading]
  · simp only [hstep, agentTurn, hinputs, foregroundTurn, hreading]

/-! ### The results of READ (R183 to R187, R228) -/

/-- What READ answers on a Frame that meets the invariant and has finished: its payload, or one of the three decode errors
(R26, R183, R184). -/
theorem readResult_endsRead {F : Frame} {v : Verdict} (h : F.Inv) (hfin : F.finished = true) (hv : F.verdict = .ok v) :
    v.readResult.EndsRead := by
  cases herror : F.error with
  | false =>
    obtain ⟨p, hp⟩ := h.readRange
    rw [verdict_success hfin herror hp] at hv
    cases hv
    exact .inl ⟨p, rfl⟩
  | true =>
    rw [verdict_failure hfin herror] at hv
    cases hv
    obtain hcode | hcode | hcode := h.code_kind.resolve_left (h.code_error.mpr herror) <;>
      simp [Result.EndsRead, Verdict.readResult, hcode]

/-- From the invariant an iteration inside READ goes on with no result, or ends with one of READ's. -/
theorem readIteration_endsRead {s t : State} (h : s.lc.Inv) (hreading : s.foreground = .reading)
    (hit : readIteration s = .next t) :
    (t.foreground = .reading ∧ t.outputs = s.outputs) ∨
      (t.foreground = .idle ∧ ∃ r, t.outputs = s.outputs ++ [.result r] ∧ r.EndsRead) := by
  obtain ⟨-, rfl⟩ | ⟨-, lc, env, d, hpoll, hact⟩ := readIteration_eq_next hit
  · exact .inr ⟨rfl, .status .sTimeout, by simp, by simp [Result.EndsRead]⟩
  · obtain ⟨-, rfl⟩ | ⟨-, rfl⟩ | ⟨F, v, hd, hv, rfl⟩ := readDispatch_eq_next hact
    · exact .inl (by simpa using hreading)
    · exact .inr ⟨rfl, .status .sTransport, by simp, by simp [Result.EndsRead]⟩
    · obtain ⟨_, _, _, hpoll', hterminal⟩ := drainOnce_answers h s.env
      rw [hpoll] at hpoll'
      cases hpoll'
      obtain ⟨hF, hfin⟩ := hterminal F hd
      exact .inr ⟨rfl, v.readResult, by simp, readResult_endsRead hF hfin hv⟩

/-- Settles O38: the deadline and the place of the foreground are all READ changes before its first iteration, which from the
invariant is answered. -/
theorem readCompletesFromTheInvariant : Obligations.ReadCompletesFromTheInvariant := by
  intro s timeout hinv hmay
  have hbegin : (s.beginRead timeout).lc.Inv := (hinv.beginRead (by simp [State.background, hmay.2]) timeout).lc
  obtain ⟨t, hit⟩ := readIteration_answers hbegin
  exact ⟨t, (exec_read hmay timeout).trans hit, readIteration_endsRead (s := s.beginRead timeout) hbegin rfl hit⟩

/-! ### The host operations and the place of the foreground (R177, R190, R191) -/

/-- Settles O32: SEND tests nothing but that the foreground is idle (R176, R177). -/
theorem sendAppendsOneWholeFrame : Obligations.SendAppendsOneWholeFrame := fun _ _ hidle => whenIdle_idle hidle _

/-- Settles O41: `running = 1` alone makes the background reader one that READ would meet. -/
theorem readWhileTheReaderRunsIsRefused : Obligations.ReadWhileTheReaderRunsIsRefused := by
  intro s timeout hidle hrunning
  rw [exec, execRead, whenIdle_idle hidle, if_pos (by simp [State.background, hrunning])]

/-- Settles O43: each of the four is issued by an idle foreground only. -/
theorem hostOperationsAreRefusedWhileBusy : Obligations.HostOperationsAreRefusedWhileBusy :=
  fun _ _ _ _ _ hbusy => ⟨whenIdle_busy hbusy _, whenIdle_busy hbusy _, whenIdle_busy hbusy _, whenIdle_busy hbusy _⟩

end Sys2Proof.Machine
end

section
/-! PROOFS. The background reader (44_link_background.md): the worker's turn and its dispatch, the worker's exit, START and
STOP (O44 to O49). -/

namespace Sys2Proof.Machine

/-! ### The worker's turn (R202) -/

section Worker

variable {s t : State} {rest : List Input} {lc lc' : LinkController} {env env' : Transport} {d : Drained}

/-- A step whose input names a worker that is alive is one iteration of its loop (log entries 8 and 9). -/
theorem step_worker (h : s.inputs = .worker :: rest) (ha : s.lc.workerAlive = true) :
    step s = workerIteration { s with inputs := rest } := by
  rw [step_of_no_fetch (fetchOp_none (by simp [h])), agentTurn, h]
  exact if_pos ha

/-- An iteration that finds the flag cleared (R203). -/
theorem workerIteration_stopped (h : s.lc.running = false) : workerIteration s = .next s.workerExit :=
  if_neg (by simp [h])

/-- An iteration that finds the flag set dispatches on its poll (R202). -/
theorem workerIteration_polled (h : s.lc.running = true) (hpoll : drainOnce s.lc s.env = .ok (lc, env, d)) :
    workerIteration s = workerDispatch d { s with lc := lc, env := env } := by
  rw [workerIteration, if_pos h, hpoll]

theorem step_worker_polled (hinputs : s.inputs = .worker :: rest) (hmay : s.MayPoll)
    (hpoll : drainOnce s.lc s.env = .ok (lc, env, d)) :
    step s = workerDispatch d { s with inputs := rest, lc := lc, env := env } := by
  obtain ⟨halive, hrunning⟩ := hmay
  rw [step_worker hinputs halive]
  exact workerIteration_polled hrunning hpoll

/-! ### The worker's dispatch (R204, R205, R209) -/

theorem workerDispatch_not_terminal (h : ∀ F, d ≠ .terminal F) (s : State) : workerDispatch d s = .next s := by
  cases d with
  | noData | drained | eos => rfl
  | terminal F => exact absurd rfl (h F)

/-- The result of a terminal Frame whose handler is absent is dropped (R209). -/
theorem workerDispatch_no_handler {F : Frame} {v : Verdict} (hv : F.verdict = .ok v) (he : v.event s.lc = none) :
    workerDispatch (.terminal F) s = .next s := by
  simp only [workerDispatch, hv, he]

/-- A handler that is present is invoked once (R204, R205). -/
theorem workerDispatch_handler {F : Frame} {v : Verdict} {e : Event} (hv : F.verdict = .ok v)
    (he : v.event s.lc = some e) : workerDispatch (.terminal F) s = .next (s.emit e) := by
  simp only [workerDispatch, hv, he]

/-- A poll leaves the handlers, so also the invocation a verdict asks for (R40). -/
theorem Polled.event_eq (h : Polled lc env lc' env') (v : Verdict) : v.event lc' = v.event lc := by
  rw [h.lc_eq]; cases v <;> rfl

/-- The worker's turn on a terminal Frame whose verdict asks for the event `mk` of the handler `handler`, as registered when
the turn began. -/
theorem step_worker_terminal {F : Frame} {v : Verdict} {handler : Option Nat} {mk : Nat → Event}
    (hinputs : s.inputs = .worker :: rest) (hmay : s.MayPoll)
    (hpoll : drainOnce s.lc s.env = .ok (lc, env, .terminal F)) (hv : F.verdict = .ok v)
    (he : v.event s.lc = handler.map mk) :
    (handler = none → step s = .next { s with inputs := rest, lc := lc, env := env }) ∧
      ∀ h, handler = some h →
        step s = .next { s with inputs := rest, lc := lc, env := env, outputs := s.outputs ++ [.event (mk h)] } := by
  rw [← (drainOnce_polled hpoll).event_eq v] at he
  rw [step_worker_polled hinputs hmay hpoll]
  constructor
  · rintro rfl
    exact workerDispatch_no_handler hv he
  · rintro h rfl
    exact workerDispatch_handler hv he

end Worker

/-- Settles O48: the worker dispatches on its poll; a Frame that finished without error asks for the frame event, one that
finished with error for the error event, each of a handler that is present (R204, R205, R209). -/
theorem workerActsOnThePollResult : Obligations.WorkerActsOnThePollResult := by
  intro s rest lc env d hinputs hmay hpoll
  refine ⟨fun hd => ?_, fun F p hd hfin herror hholds => ?_, fun F hd hfin herror => ?_⟩
  · rw [step_worker_polled hinputs hmay hpoll, workerDispatch_not_terminal hd]
  · subst hd
    exact step_worker_terminal hinputs hmay hpoll (verdict_success hfin herror hholds.2) rfl
  · subst hd
    exact step_worker_terminal hinputs hmay hpoll (verdict_failure hfin herror) rfl

/-! ### The frame that waits (R169, R178 to R181) -/

/-- A poll with no frame in progress, of an open stream that begins with an encoded payload, hands off a Frame that holds the
payload and reads nothing after it. -/
theorem drainOnce_wireEncode {lc : LinkController} {t : Transport} {p rest : List Byte} (hcur : lc.currentFrame = none)
    (hopen : t.Open) (hq : t.rxq = wireEncode p ++ rest) (h1 : 1 ≤ p.length) (hp : p.length ≤ Config.maxPayload) :
    ∃ F, F.finished = true ∧ F.error = false ∧ F.Holds p ∧
      drainOnce lc t = .ok (lc.handoff F, { t with rxq := rest }, .terminal F) := by
  obtain ⟨F, hfeed, herror, hholds⟩ := feed_wireEncode h1 hp
  have hwaiting := feed_append_of_terminal hfeed rest
  rw [← hq, ← frameForByte_fresh hcur] at hwaiting
  exact ⟨F, feed_finished hfeed, herror, hholds, drainOnce_feed hopen (by simp [hq, wireEncode_eq]) hwaiting⟩

/-- Settles O49: the worker's poll hands off a Frame that holds the payload, which goes to the frame handler (O48). -/
theorem workerDeliversTheWaitingFrame : Obligations.WorkerDeliversTheWaitingFrame := by
  intro s inputs h p rest hinputs hmay hhandler hcur hopen hq h1 hp
  obtain ⟨F, hfin, herror, hholds, hpoll⟩ := drainOnce_wireEncode hcur hopen hq h1 hp
  obtain ⟨-, hsuccess, -⟩ := workerActsOnThePollResult s inputs _ _ _ hinputs hmay hpoll
  obtain ⟨-, hinvoked⟩ := hsuccess F p rfl hfin herror hholds
  exact ⟨F, hfin, herror, hholds, hinvoked h hhandler⟩

/-! ### The worker's exit (R203) -/

/-- No move but the worker's exit ends the worker: one case for each kind of move. -/
theorem Move.worker_stays_or_exits {s t : State} (hm : Move s t) (ha : s.lc.workerAlive = true) :
    t.lc.workerAlive = true ∨ (s.lc.running = false ∧ t = s.workerExit) := by
  cases hm with
  | stay | answer | feed | resetFrame | send | stopWait | stopAtOnce | stopReturn | environment => exact .inl ha
  | start => exact .inl rfl
  | readIssue _ _ _ hit | readTurn _ hit =>
    obtain ⟨-, -, hp, -⟩ := readIteration_frame hit
    exact .inl (hp.workerAlive_eq.trans ha)
  | workerTurn _ hit =>
    obtain hexit | ⟨-, -, -, -, hp, -⟩ := workerIteration_frame hit
    · exact .inr hexit
    · exact .inl (hp.workerAlive_eq.trans ha)

/-- Settles O47: an iteration that finds the flag cleared is the worker's exit, and no other move ends the worker. -/
theorem workerExitsWhenTheFlagIsCleared : Obligations.WorkerExitsWhenTheFlagIsCleared := by
  constructor
  · intro s rest hinputs halive hrunning
    rw [step_worker hinputs halive]
    exact workerIteration_stopped hrunning
  · intro s t hstep halive hgone
    obtain ⟨_, ⟨rest, -, rfl⟩, hm⟩ := step_move hstep
    obtain hstays | ⟨hrunning, rfl⟩ := hm.worker_stays_or_exits halive
    · simp [hgone] at hstays
    · exact ⟨hrunning, rfl⟩

/-! ### START and STOP (R200, R201, R206, R208) -/

/-- Settles O44: START tests the flag and sets it in the one step (R200, R201). -/
theorem startBeginsOneSession : Obligations.StartBeginsOneSession := by
  intro a b s hidle
  rw [exec, execStart, whenIdle_idle hidle]
  exact ⟨fun hrunning => if_neg (by simp [hrunning]), fun hrunning => if_pos hrunning⟩

/-- Settles O45: STOP clears the flag and tests whether there is a worker to wait for (R206, R208). -/
theorem stopClearsTheFlag : Obligations.StopClearsTheFlag := by
  intro s hidle
  rw [exec, execStop, whenIdle_idle hidle]
  exact ⟨fun hgone => if_neg (by simp [hgone]), fun halive => if_pos halive⟩

section Stopping

variable {s : State}

/-- STOP's wait goes on while the worker is alive (R206). -/
theorem foregroundTurn_stopping_alive (h : s.foreground = .stopping) (ha : s.lc.workerAlive = true) :
    foregroundTurn s = .next s := by
  simp only [foregroundTurn, h, if_pos ha]

/-- STOP returns once the worker is gone (R206). -/
theorem foregroundTurn_stopping_gone (h : s.foreground = .stopping) (ha : s.lc.workerAlive = false) :
    foregroundTurn s = .next (s.endOp (.status .ok)) := by
  simp [foregroundTurn, h, ha]

/-- A step of a foreground inside STOP whose input names the foreground is its turn (log entry 8). -/
theorem step_stopping_foreground {rest : List Input} (h : s.foreground = .stopping)
    (hinputs : s.inputs = .foreground :: rest) : step s = foregroundTurn { s with inputs := rest } := by
  rw [step_of_busy (by simp [h]), agentTurn, hinputs]

/-- Inside STOP with no input the worker moves while it is alive, then the foreground (log entry 8). -/
theorem step_stopping_no_input (h : s.foreground = .stopping) (hinputs : s.inputs = []) :
    step s = if s.lc.workerAlive then workerIteration s else foregroundTurn s := by
  rw [step_of_busy (by simp [h]), agentTurn, hinputs]
  simp only [defaultTurn, h]

/-- Inside STOP, which has cleared the flag, a worker that is alive exits when nobody else is named (R203). -/
theorem step_stopping_worker_exits (h : s.foreground = .stopping) (hinputs : s.inputs = [])
    (ha : s.lc.workerAlive = true) (hr : s.lc.running = false) : step s = .next s.workerExit := by
  rw [step_stopping_no_input h hinputs, if_pos ha, workerIteration_stopped hr]

/-- Inside STOP with the worker gone, STOP returns when nobody is named (R206). -/
theorem step_stopping_returns (h : s.foreground = .stopping) (hinputs : s.inputs = [])
    (ha : s.lc.workerAlive = false) : step s = .next (s.endOp (.status .ok)) := by
  rw [step_stopping_no_input h hinputs, if_neg (by simp [ha]), foregroundTurn_stopping_gone h ha]

end Stopping

/-- Settles O46: STOP has cleared the flag, so the worker's next iteration is its exit, and the turn after it is STOP's
return, which leaves an idle foreground, no reader and no command (R203, R206, R268). -/
theorem stopReturnsOnceTheWorkerHasExited : Obligations.StopReturnsOnceTheWorkerHasExited := by
  constructor
  · intro s rest hstopping hinputs
    rw [step_stopping_foreground hstopping hinputs]
    exact ⟨foregroundTurn_stopping_alive (s := { s with inputs := rest }) hstopping,
      foregroundTurn_stopping_gone (s := { s with inputs := rest }) hstopping⟩
  · intro s hidle halive hinputs
    obtain ⟨-, hwaits⟩ := stopClearsTheFlag s hidle
    refine ⟨_, _, _, hwaits halive, step_stopping_worker_exits rfl hinputs halive rfl, rfl,
      step_stopping_returns rfl hinputs rfl, ?_, rfl, rfl, rfl, ?_⟩
    · rw [hidle]; rfl
    · change ∀ c, Input.op c ∉ s.inputs
      simp [hinputs]

end Sys2Proof.Machine
end

section
/-! PROOFS. The exceptions and the modes (O50, O52 to O54, O56). Two inversions say what an instruction and an agent's turn can
do; from them one lemma says what a step can report and from where, and a lemma each says how a READ begins and ends, how a worker
begins and ends, and how a STOP ends. -/

namespace Sys2Proof.Machine

/-! ### What a terminal byte means to its consumer (R28, R183 to R185, R213) -/

/-- The codes that a byte can abort its Frame with (R26, R136). -/
def Status.IsDecodeError (c : Status) : Prop := c = .eFraming ∨ c = .eTooBig ∨ c = .eCrc

/-- Append terminates a Frame only as too big (R130). -/
theorem append_terminal {F G : Frame} {v : Byte} (h : F.append v = .ok (G, true)) :
    G.error = true ∧ G.errCode.IsDecodeError := by
  obtain ⟨-, -, rfl⟩ | ⟨-, ht, -⟩ := append_cases h
  · exact ⟨rfl, .inr (.inl rfl)⟩
  · cases ht

/-- A terminal byte leaves a success, or a decode error with its code, on any Frame: one case for each row of R135. -/
theorem addByte_terminal {F G : Frame} {b : Byte} (h : F.addByte b = .ok (G, true)) :
    G.finished = true ∧ (G.error = false ∨ (G.error = true ∧ G.errCode.IsDecodeError)) := by
  refine ⟨addByte_finished_eq h, ?_⟩
  obtain ⟨-, ⟨-, -, -, rfl⟩ | ⟨-, -, -, hfin⟩ | ⟨-, -, -, ht, -⟩ | ⟨-, -, ht, -⟩ | ⟨-, -, ha⟩ | ⟨-, -, -, ha⟩⟩ :=
    addByte_cases h
  · exact .inr ⟨rfl, .inl rfl⟩
  · obtain ⟨-, hi, lo, p, -, -, ⟨-, rfl⟩ | ⟨-, rfl⟩⟩ := finish_cases hfin
    · exact .inl rfl
    · exact .inr ⟨rfl, .inr (.inr rfl)⟩
  · cases ht
  · cases ht
  · exact .inr (append_terminal ha)
  · exact .inr (append_terminal ha)

/-- The verdicts that name no internal inconsistency. -/
def Verdict.Consistent : Verdict → Prop
  | .success _ => True
  | .failure c => c.IsDecodeError
  | .inconsistent => False

theorem verdict_consistent {F G : Frame} {b : Byte} {v : Verdict} (h : F.addByte b = .ok (G, true))
    (hv : G.verdict = .ok v) : v.Consistent := by
  obtain ⟨hfin, herror | ⟨herror, hcode⟩⟩ := addByte_terminal h
  · rw [Frame.verdict, if_pos ⟨hfin, herror⟩] at hv
    split at hv
    · cases hv
    · cases hv; trivial
  · rw [verdict_failure hfin herror] at hv
    cases hv
    exact hcode

/-- A Frame that a poll hands off is one that a byte terminated (R181). -/
theorem DrainRun.terminal_byte {lc lc' : LinkController} {t t' : Transport} {used : List Byte} {d : Drained} {F : Frame}
    (h : DrainRun lc t used lc' t' d) (hd : d = .terminal F) : ∃ G b, Frame.addByte G b = .ok (F, true) := by
  induction h with
  | drained | eos => cases hd
  | terminal _ _ hb => cases hd; exact ⟨_, _, hb⟩
  | byte _ _ _ _ ih => exact ih hd

theorem drainOnce_verdict_consistent {lc lc' : LinkController} {t t' : Transport} {F : Frame} {v : Verdict}
    (h : drainOnce lc t = .ok (lc', t', .terminal F)) (hv : F.verdict = .ok v) : v.Consistent := by
  unfold drainOnce at h
  split at h
  · cases h
  · obtain ⟨used, hrun⟩ := drainLoop_run rfl h
    obtain ⟨G, b, hb⟩ := hrun.terminal_byte rfl
    exact verdict_consistent hb hv

theorem Verdict.Consistent.endsRead {v : Verdict} (h : v.Consistent) : v.readResult.EndsRead := by
  cases v with
  | success p => exact .inl ⟨p, rfl⟩
  | failure c => obtain rfl | rfl | rfl := h <;> simp [Result.EndsRead, Verdict.readResult]
  | inconsistent => exact h.elim

theorem Verdict.Consistent.event_code {v : Verdict} (h : v.Consistent) {lc : LinkController} {handler : Nat} {c : Status}
    (he : v.event lc = some (.error handler c)) : c.IsDecodeError := by
  cases v with
  | success p => simp [Verdict.event] at he
  | failure c' =>
    obtain ⟨_, -, hc⟩ := Option.map_eq_some_iff.mp he
    cases hc
    exact h
  | inconsistent => exact h.elim

/-! ### What the iterations of READ and of the worker report -/

/-- From any state an iteration of READ's loop goes on with no result, or ends with one of READ's, S_INTERNAL not among them
(R182, R185). -/
theorem readIteration_reports {s t : State} (h : readIteration s = .next t) :
    (t.foreground = s.foreground ∧ t.outputs = s.outputs) ∨
      (t.foreground = .idle ∧ ∃ r, t.outputs = s.outputs ++ [.result r] ∧ r.EndsRead) := by
  obtain ⟨-, rfl⟩ | ⟨-, lc, env, d, hpoll, hact⟩ := readIteration_eq_next h
  · exact .inr ⟨rfl, .status .sTimeout, by simp, by simp [Result.EndsRead]⟩
  · obtain ⟨-, rfl⟩ | ⟨-, rfl⟩ | ⟨F, v, rfl, hv, rfl⟩ := readDispatch_eq_next hact
    · exact .inl (by simp)
    · exact .inr ⟨rfl, .status .sTransport, by simp, by simp [Result.EndsRead]⟩
    · exact .inr ⟨rfl, v.readResult, by simp, (drainOnce_verdict_consistent hpoll hv).endsRead⟩

/-- From any state an iteration of the worker invokes at most one handler, and the error handler only with a decode error
(R205, R213). -/
theorem workerIteration_reports {s t : State} (h : workerIteration s = .next t) :
    t.outputs = s.outputs ∨
      ∃ e, t.outputs = s.outputs ++ [.event e] ∧ ∀ handler c, e = .error handler c → c.IsDecodeError := by
  obtain ⟨-, rfl⟩ | ⟨-, lc, env, d, hpoll, hact⟩ := workerIteration_eq_next h
  · exact .inl rfl
  · obtain rfl | ⟨F, v, e, rfl, hv, he, rfl⟩ := workerDispatch_eq_next hact
    · exact .inl rfl
    · refine .inr ⟨e, by simp, ?_⟩
      rintro handler c rfl
      exact (drainOnce_verdict_consistent hpoll hv).event_code he

/-! ### What an instruction can do, and what an agent's turn can -/

/-- A result with a status that R228 lists for the instruction, other than S_INTERNAL. -/
def Result.Answers (r : Result) (i : Instr) : Prop := r.code ∈ returnedCodes i ∧ r.code ≠ some .sInternal

theorem Result.EndsRead.answers {r : Result} (h : r.EndsRead) (n : Nat) : r.Answers (.read n) := by
  obtain ⟨p, rfl⟩ | rfl | rfl | rfl | rfl | rfl := h <;> simp [Result.Answers, Result.code, returnedCodes]

/-- What an instruction that answers makes of the state: READ, a successful START and STOP each change the controller or the
place of the foreground; every other answer leaves both, and adds at most one result. -/
inductive Executed (s : State) : Instr → State → Prop
  | keeps {i : Instr} {t : State} (hlc : t.lc = s.lc) (hfg : t.foreground = s.foreground)
      (hout : t.outputs = s.outputs ∨ ∃ r, t.outputs = s.outputs ++ [.result r] ∧ r.Answers i) : Executed s i t
  | read {t : State} (timeout : Nat) (h : readIteration (s.beginRead timeout) = .next t) : Executed s (.read timeout) t
  | start (a b : Option Nat) :
      Executed s (.start a b) ({ s with lc := s.lc.startReader a b }.returns (.status .ok))
  | stopWait : Executed s .stop { s.clearRunning with foreground := .stopping }
  | stopAtOnce : Executed s .stop (s.clearRunning.returns (.status .ok))

theorem Executed.returned {s : State} {i : Instr} {r : Result} (hr : r.Answers i) : Executed s i (s.returns r) :=
  .keeps rfl rfl (.inr ⟨r, rfl, hr⟩)

/-- A byte fed to a standalone Frame answers with its result, which carries no status (R120). -/
theorem FeedsFrame.executed {i : Instr} {f : Nat} (hi : FeedsFrame i f) {s t : State} (h : exec i s = .next t) :
    Executed s i t := by
  obtain ⟨G, u, rfl⟩ := hi.exec_eq_next h
  refine .keeps rfl rfl (.inr ⟨.terminal u, rfl, ?_⟩)
  obtain rfl | rfl | rfl | rfl | ⟨b, rfl⟩ | ⟨b, rfl⟩ | ⟨b, rfl⟩ := hi <;> exact ⟨List.mem_cons_self, nofun⟩

/-- Everything an instruction can answer, by the instruction. -/
theorem exec_executed {i : Instr} {s t : State} (h : exec i s = .next t) : Executed s i t := by
  cases i with
  | rxEndEsc f | rxEndFin f | rxEndSkip f | rxEsc f | rxDataEsc f b | rxData f b | faAddbyte f b =>
    exact FeedsFrame.executed (f := f) (by simp [FeedsFrame]) h
  | txEsc7E | txEsc7D | txFlag | crc16 x | encode p =>
    cases h
    exact .returned ⟨List.mem_cons_self, nofun⟩
  | txLit x =>
    rw [execTxLit_eq_next h]
    exact .returned ⟨List.mem_cons_self, nofun⟩
  | faReset f => cases h; exact .keeps rfl rfl (.inl rfl)
  | send p =>
    obtain ⟨-, h⟩ := whenIdle_eq_next h
    cases h
    exact .keeps rfl rfl (.inr ⟨_, rfl, List.mem_cons_self, nofun⟩)
  | read timeout =>
    obtain ⟨-, -, h⟩ := execRead_eq_next h
    exact .read timeout h
  | start a b =>
    obtain ⟨-, h⟩ := whenIdle_eq_next h
    split at h
    · cases h; exact .returned ⟨List.mem_cons_of_mem _ List.mem_cons_self, nofun⟩
    · cases h; exact .start a b
  | stop =>
    obtain ⟨-, h⟩ := whenIdle_eq_next h
    split at h
    · cases h; exact .stopWait
    · cases h; exact .stopAtOnce

/-- What a step that issues no operation can do to the state once its input is taken (R8, log entry 8): the moves of READ's
loop, of STOP's wait, of the worker and of the environment. -/
inductive Turn (s : State) : State → Prop
  | stay : Turn s s
  | environment (e : Transport) : Turn s { s with env := e }
  | read {t : State} (hreading : s.foreground = .reading) (h : readIteration s = .next t) : Turn s t
  | stopReturn (hstopping : s.foreground = .stopping) (hgone : s.lc.workerAlive = false) : Turn s (s.endOp (.status .ok))
  | worker {t : State} (halive : s.lc.workerAlive = true) (h : workerIteration s = .next t) : Turn s t

theorem workerTurn_turn {s t : State} (h : workerTurn s = .next t) : Turn s t := by
  unfold workerTurn at h
  split at h
  · exact .worker ‹_› h
  · cases h; exact .stay

theorem foregroundTurn_turn {s t : State} (h : foregroundTurn s = .next t) : Turn s t := by
  cases hfg : s.foreground with
  | idle => simp only [foregroundTurn, hfg] at h; cases h; exact .stay
  | reading => simp only [foregroundTurn, hfg] at h; exact .read hfg h
  | stopping =>
    cases ha : s.lc.workerAlive with
    | true => rw [foregroundTurn_stopping_alive hfg ha] at h; cases h; exact .stay
    | false => rw [foregroundTurn_stopping_gone hfg ha] at h; cases h; exact .stopReturn hfg ha

theorem defaultTurn_turn {s t : State} (h : defaultTurn s = .next t) : Turn s t := by
  unfold defaultTurn at h
  split at h
  · exact .read ‹_› h
  · exact workerTurn_turn h
  · split at h
    · exact .worker ‹_› h
    · exact foregroundTurn_turn h

theorem agentTurn_turn {s t : State} (h : agentTurn s = .next t) : ∃ u, s.Takes u ∧ Turn u t := by
  unfold agentTurn at h
  split at h
  · exact ⟨s, .none s, defaultTurn_turn h⟩
  · exact ⟨s, .none s, defaultTurn_turn h⟩
  · cases h; exact ⟨_, .first ‹_›, .environment _⟩
  · cases h; exact ⟨_, .first ‹_›, .environment _⟩
  · cases h; exact ⟨_, .first ‹_›, .environment _⟩
  · exact ⟨_, .first ‹_›, foregroundTurn_turn h⟩
  · exact ⟨_, .first ‹_›, workerTurn_turn h⟩

/-- The idle foreground's next input is a command of the instruction (R8). -/
def State.Issues (s : State) (i : Instr) : Prop :=
  ∃ c rest, s.foreground = .idle ∧ s.inputs = .op c :: rest ∧ decode s.view c = .ok i

/-- A step executes the instruction issued, or is a turn; either way on the state but for the inputs left. -/
theorem step_executed_or_turn {s t : State} (h : step s = .next t) :
    ∃ rest, (∃ i, s.Issues i ∧ Executed { s with inputs := rest } i t) ∨ Turn { s with inputs := rest } t := by
  obtain ⟨c, u, i, hfetch, hdecode, hexec⟩ | ⟨-, hturn⟩ := step_eq_next h
  · obtain ⟨hidle, rest, hinputs, rfl⟩ := fetchOp_eq_some hfetch
    exact ⟨rest, .inl ⟨i, ⟨c, rest, hidle, hinputs, hdecode⟩, exec_executed hexec⟩⟩
  · obtain ⟨_, ⟨rest, -, rfl⟩, hu⟩ := agentTurn_turn hturn
    exact ⟨rest, .inr hu⟩

/-- Inside READ or STOP a step is a turn (R190). -/
theorem turn_of_busy {s t : State} (hbusy : s.foreground ≠ .idle) (h : step s = .next t) :
    ∃ rest, Turn { s with inputs := rest } t := by
  obtain ⟨rest, ⟨i, ⟨-, -, hidle, -⟩, -⟩ | hturn⟩ := step_executed_or_turn h
  · exact absurd hidle hbusy
  · exact ⟨rest, hturn⟩

/-! ### What a step can report, and from where (R228, R226, R236) -/

theorem Executed.reports {s t : State} {i : Instr} (h : Executed s i t) :
    t.outputs = s.outputs ∨ ∃ r, t.outputs = s.outputs ++ [.result r] ∧ r.Answers i := by
  cases h with
  | keeps _ _ hout => exact hout
  | read timeout hit =>
    obtain ⟨-, hout⟩ | ⟨-, r, hout, hr⟩ := readIteration_reports hit
    · exact .inl hout
    · exact .inr ⟨r, hout, hr.answers timeout⟩
  | start | stopAtOnce => exact .inr ⟨_, rfl, List.mem_cons_self, nofun⟩
  | stopWait => exact .inl rfl

/-- The operation that the foreground issues, or is inside of. -/
def State.Runs (s : State) (i : Instr) : Prop :=
  s.Issues i ∨ (s.foreground = .reading ∧ ∃ n, i = .read n) ∨ (s.foreground = .stopping ∧ i = .stop)

/-- An entry that a step from `s` can add: a result of the operation that runs, or a handler call of the worker, neither with
S_INTERNAL. -/
inductive State.Reports (s : State) : Output → Prop
  | result {i : Instr} {r : Result} (hruns : s.Runs i) (hr : r.Answers i) : s.Reports (.result r)
  | event {e : Event} (halive : s.lc.workerAlive = true)
      (he : ∀ handler c, e = .error handler c → c.IsDecodeError) : s.Reports (.event e)

theorem Turn.reports {s t : State} {rest : List Input} (h : Turn { s with inputs := rest } t) :
    t.outputs = s.outputs ∨ ∃ o, t.outputs = s.outputs ++ [o] ∧ s.Reports o := by
  cases h with
  | stay | environment => exact .inl rfl
  | read hreading hit =>
    obtain ⟨-, hout⟩ | ⟨-, r, hout, hr⟩ := readIteration_reports hit
    · exact .inl hout
    · exact .inr ⟨_, hout, .result (.inr (.inl ⟨hreading, 0, rfl⟩)) (hr.answers 0)⟩
  | stopReturn hstopping _ =>
    exact .inr ⟨_, rfl, .result (.inr (.inr ⟨hstopping, rfl⟩)) ⟨List.mem_cons_self, nofun⟩⟩
  | worker halive hit =>
    obtain hout | ⟨e, hout, he⟩ := workerIteration_reports hit
    · exact .inl hout
    · exact .inr ⟨_, hout, .event halive he⟩

theorem step_reports {s t : State} (h : step s = .next t) :
    t.outputs = s.outputs ∨ ∃ o, t.outputs = s.outputs ++ [o] ∧ s.Reports o := by
  obtain ⟨rest, ⟨i, hissues, hexec⟩ | hturn⟩ := step_executed_or_turn h
  · obtain hout | ⟨r, hout, hr⟩ := hexec.reports
    · exact .inl hout
    · exact .inr ⟨_, hout, .result (.inl hissues) hr⟩
  · exact hturn.reports

/-- Settles O53: an entry that a step adds comes from the operation that runs, which is one of three kinds, or from the
worker. -/
theorem eachOperationReturnsOnlyItsCodes : Obligations.EachOperationReturnsOnlyItsCodes := by
  constructor
  · intro i s t h
    obtain hout | ⟨r, hout, hr, -⟩ := (exec_executed h).reports
    · exact .inl hout
    · exact .inr ⟨r, hout, hr⟩
  · intro s t h
    obtain hout | ⟨_, hout, ⟨hruns, hr, -⟩ | ⟨halive, he⟩⟩ := step_reports h
    · exact .inl hout
    · refine .inr (.inl ⟨_, hout, ?_⟩)
      obtain ⟨c, rest, hidle, hinputs, hdecode⟩ | ⟨hreading, n, rfl⟩ | ⟨hstopping, rfl⟩ := hruns
      · exact .inl ⟨c, rest, _, hidle, hinputs, hdecode, hr⟩
      · exact .inr (.inl ⟨hreading, n, hr⟩)
      · exact .inr (.inr ⟨hstopping, hr⟩)
    · refine .inr (.inr ⟨_, hout, halive, fun handler c hec => ?_⟩)
      obtain hc | hc | hc := he handler c hec <;> simp [hc]

theorem State.Reports.ne_internal_result {s : State} {o : Output} (h : s.Reports o) : o ≠ .result (.status .sInternal) := by
  cases h with
  | result _ hr => rintro ⟨⟩; exact hr.2 rfl
  | event => nofun

theorem State.Reports.ne_internal_event {s : State} {o : Output} (h : s.Reports o) (handler : Nat) :
    o ≠ .event (.error handler .sInternal) := by
  cases h with
  | result => nofun
  | event _ he => rintro ⟨⟩; exact absurd (he handler _ rfl) (by simp [Status.IsDecodeError])

/-- An entry that a step cannot report stands after it only where it stood before. -/
theorem mem_outputs_of_step {s t : State} {o : Output} (h : step s = .next t) (ho : ∀ o', s.Reports o' → o' ≠ o)
    (hmem : o ∈ t.outputs) : o ∈ s.outputs := by
  obtain hout | ⟨o', hout, hreports⟩ := step_reports h
  · rwa [hout] at hmem
  · rw [hout, List.mem_append, List.mem_singleton] at hmem
    exact hmem.resolve_right fun heq => ho o' hreports heq.symm

/-- Settles O54: S_INTERNAL is no result of an operation that runs, and no code of a handler call (R28). -/
theorem internalErrorIsNeverReported : Obligations.InternalErrorIsNeverReported := fun _ _ h =>
  ⟨mem_outputs_of_step h fun _ ho => ho.ne_internal_result,
    fun handler => mem_outputs_of_step h fun _ ho => ho.ne_internal_event handler⟩

/-- A result is no handler call. -/
theorem events_of_result {s t : State} {r : Result} (h : t.outputs = s.outputs ++ [.result r]) : t.events = s.events := by
  simp [State.events, h, Output.event?]

/-- Settles O50: an instruction adds a result at most, and the one entry of a step that is no result is the worker's. -/
theorem handlersRunOnlyInTheWorker : Obligations.HandlersRunOnlyInTheWorker := by
  constructor
  · intro i s t h
    obtain hout | ⟨r, hout, -⟩ := (exec_executed h).reports
    · exact congrArg (List.filterMap Output.event?) hout
    · exact events_of_result hout
  · intro s t hgone h
    obtain hout | ⟨_, hout, _ | ⟨halive, -⟩⟩ := step_reports h
    · exact congrArg (List.filterMap Output.event?) hout
    · exact events_of_result hout
    · simp [hgone] at halive

/-! ### The modes (R237) -/

theorem mode_eq_background_iff {s : State} : s.mode = .background ↔ s.lc.workerAlive = true := by
  unfold State.mode
  cases s.lc.workerAlive with
  | true => simp
  | false => cases s.foreground <;> simp

theorem mode_eq_blocking_iff {s : State} : s.mode = .blocking ↔ s.lc.workerAlive = false ∧ s.foreground = .reading := by
  unfold State.mode
  cases s.lc.workerAlive with
  | true => simp
  | false => cases s.foreground <;> simp

theorem mode_eq_idle_iff {s : State} : s.mode = .idle ↔ s.lc.workerAlive = false ∧ s.foreground ≠ .reading := by
  unfold State.mode
  cases s.lc.workerAlive with
  | true => simp
  | false => cases s.foreground <;> simp

/-- A turn puts the foreground inside no operation. -/
theorem Turn.foreground {s t : State} (h : Turn s t) : t.foreground = s.foreground ∨ t.foreground = .idle := by
  cases h with
  | stay | environment => exact .inl rfl
  | read _ hit => exact (readIteration_reports hit).imp And.left And.left
  | stopReturn => exact .inr rfl
  | worker _ hit =>
    obtain ⟨-, rfl⟩ | ⟨-, -, -, hfg, -⟩ := workerIteration_frame hit
    · exact .inl rfl
    · exact .inl hfg

/-- A turn creates no worker (R200). -/
theorem Turn.workerAlive {s t : State} (h : Turn s t) (ht : t.lc.workerAlive = true) : s.lc.workerAlive = true := by
  cases h with
  | stay | environment | stopReturn => exact ht
  | read _ hit =>
    obtain ⟨-, -, hp, -⟩ := readIteration_frame hit
    exact hp.workerAlive_eq.symm.trans ht
  | worker halive _ => exact halive

/-- Only READ puts the foreground inside READ. -/
theorem step_enters_read {s t : State} (h : step s = .next t) (hs : s.foreground ≠ .reading)
    (ht : t.foreground = .reading) : ∃ n, s.Issues (.read n) := by
  obtain ⟨rest, ⟨i, hissues, hexec⟩ | hturn⟩ := step_executed_or_turn h
  · cases hexec with
    | keeps _ hfg => exact absurd (hfg.symm.trans ht) hs
    | read n => exact ⟨n, hissues⟩
    | start | stopAtOnce => exact absurd ht hs
    | stopWait => cases ht
  · obtain hfg | hfg := hturn.foreground
    · exact absurd (hfg.symm.trans ht) hs
    · cases hfg.symm.trans ht

/-- Only a START that returns S_OK creates a worker (R200). -/
theorem step_starts_worker {s t : State} (h : step s = .next t) (hs : s.lc.workerAlive = false)
    (ht : t.lc.workerAlive = true) :
    ∃ a b, s.Issues (.start a b) ∧ t.outputs = s.outputs ++ [.result (.status .ok)] := by
  have hnew : t.lc.workerAlive ≠ s.lc.workerAlive := by simp [hs, ht]
  obtain ⟨rest, ⟨i, hissues, hexec⟩ | hturn⟩ := step_executed_or_turn h
  · cases hexec with
    | keeps hlc => exact absurd (congrArg _ hlc) hnew
    | read n hit =>
      obtain ⟨-, -, hp, -⟩ := readIteration_frame hit
      exact absurd hp.workerAlive_eq hnew
    | start a b => exact ⟨a, b, hissues, rfl⟩
    | stopWait | stopAtOnce => exact absurd rfl hnew
  · exact absurd (hturn.workerAlive ht) (by simp [hs])

/-- The foreground leaves READ with one of its results (R182). -/
theorem step_leaves_read {s t : State} (h : step s = .next t) (hs : s.foreground = .reading)
    (ht : t.foreground ≠ .reading) :
    t.foreground = .idle ∧ ∃ r, t.outputs = s.outputs ++ [.result r] ∧ r.EndsRead := by
  obtain ⟨rest, hturn⟩ := turn_of_busy (by simp [hs]) h
  cases hturn with
  | stay | environment => exact absurd hs ht
  | read _ hit => exact (readIteration_reports hit).resolve_left fun hgoes => ht (hgoes.1.trans hs)
  | stopReturn hstopping => cases hs.symm.trans hstopping
  | worker halive hit =>
    obtain ⟨-, rfl⟩ | ⟨-, -, -, hfg, -⟩ := workerIteration_frame hit
    · exact absurd hs ht
    · exact absurd (hfg.trans hs) ht

/-- The foreground leaves STOP with S_OK, once the worker is gone (R206). -/
theorem step_leaves_stop {s t : State} (h : step s = .next t) (hs : s.foreground = .stopping)
    (ht : t.foreground ≠ .stopping) :
    s.lc.workerAlive = false ∧ t.lc = s.lc ∧ t.foreground = .idle ∧
      t.outputs = s.outputs ++ [.result (.status .ok)] := by
  obtain ⟨rest, hturn⟩ := turn_of_busy (by simp [hs]) h
  cases hturn with
  | stay | environment => exact absurd hs ht
  | read hreading => cases hs.symm.trans hreading
  | stopReturn _ hgone => exact ⟨hgone, rfl, rfl, rfl⟩
  | worker _ hit =>
    obtain ⟨-, rfl⟩ | ⟨-, -, -, hfg, -⟩ := workerIteration_frame hit
    · exact absurd hs ht
    · exact absurd (hfg.trans hs) ht

/-- The worker exits inside STOP, which goes on waiting, and reports nothing (R36, R203). -/
theorem step_exits_worker {s t : State} (hinv : s.Inv) (h : step s = .next t) (hs : s.lc.workerAlive = true)
    (ht : t.lc.workerAlive = false) :
    s.lc.running = false ∧ s.foreground = .stopping ∧ t.foreground = .stopping ∧ t.outputs = s.outputs := by
  obtain ⟨_, ⟨rest, -, rfl⟩, hm⟩ := step_move h
  obtain hstays | ⟨hrunning, rfl⟩ := hm.worker_stays_or_exits hs
  · simp [ht] at hstays
  · have hstopping := hinv.exiting hs hrunning
    exact ⟨hrunning, hstopping, hstopping, rfl⟩

/-- Settles O56: each way between the modes is the beginning or the end of a READ, of a STOP or of the worker. -/
theorem modesChangeOnlyByReadStartAndReturn : Obligations.ModesChangeOnlyByReadStartAndReturn := by
  intro s t hinv h
  simp only [mode_eq_background_iff, mode_eq_blocking_iff, mode_eq_idle_iff, ne_eq]
  refine ⟨?idleToBlocking, ?idleToBackground, ?blockingToBackground, ?backgroundToBlocking, ?blockingToIdle,
    ?backgroundToIdle, ?stopReturns⟩
  case idleToBlocking =>
    rintro ⟨-, hs⟩ ⟨-, ht⟩
    obtain ⟨n, c, rest, -, hinputs, hdecode⟩ := step_enters_read h hs ht
    exact ⟨c, rest, n, hinputs, hdecode⟩
  case idleToBackground =>
    rintro ⟨hs, -⟩ ht
    obtain ⟨a, b, ⟨c, rest, -, hinputs, hdecode⟩, hout⟩ := step_starts_worker h hs ht
    exact ⟨c, rest, a, b, hinputs, hdecode, hout⟩
  case blockingToBackground =>
    rintro ⟨hs, hreading⟩ ht
    obtain ⟨a, b, ⟨c, rest, hidle, -⟩, -⟩ := step_starts_worker h hs ht
    cases hidle.symm.trans hreading
  case backgroundToBlocking =>
    rintro hs ⟨ht, hreading⟩
    obtain ⟨-, -, hstopping, -⟩ := step_exits_worker hinv h hs ht
    cases hstopping.symm.trans hreading
  case blockingToIdle =>
    rintro ⟨-, hreading⟩ ⟨-, ht⟩
    exact ⟨hreading, step_leaves_read h hreading ht⟩
  case backgroundToIdle =>
    rintro hs ⟨ht, -⟩
    exact step_exits_worker hinv h hs ht
  case stopReturns =>
    intro hstopping ht
    obtain ⟨hgone, hlc, hidle, hout⟩ := step_leaves_stop h hstopping ht
    simp [hgone, hlc, hstopping, hidle, hout]

/-! ### The result codes (R220, R26) -/

/-- Settles O52: the numbers and the messages are read off the tables; eight codes, so each below 8. -/
theorem resultCodesAndMessages : Obligations.ResultCodesAndMessages :=
  ⟨rfl, rfl, rfl, rfl, rfl, rfl, rfl, rfl, fun c => by cases c <;> decide, rfl, rfl, rfl⟩

end Sys2Proof.Machine
end
